-- ==== Sys2Proof/Config.lean ====
section
/-! DEFINITION. Config: what this hardware fixes (00_scope.md R5, R6, R7) and what the spec leaves open.
`MEM_SIZE` is fixed at 100 (D6), `OVERFLOW_TRAPS` is fixed to false (D2: the ALU wraps and raises nothing). The three
parameters of 93_implementation_defined.md that are not fixed (U1 the width, U4 the overflowing quotient, U5 the reserved
opcodes) are the fields of `Parameters`. -/

namespace Sys2Proof.Config

/-- `MEM_SIZE` (R5). -/
abbrev memSize : Nat := 100

/-- `OPERAND_MODULUS` (R7), the divisor of decode. -/
abbrev operandModulus : Int := 100

/-- `IMPLEMENTED_OPCODES` (R7). -/
def implementedOpcodes : List Int := [10, 11, 20, 21, 30, 31, 32, 33, 40, 41, 42, 43]

/-- What R7 requires of a set of reserved opcodes: it is disjoint from the implemented ones (U5). -/
def ReservedDisjoint (reserved : List Int) : Prop := ∀ k ∈ reserved, k ∉ implementedOpcodes

/-- The spec's default for the result of `WMIN / -1` in DIVIDE (R144 (b), U4, D4): `WMIN`, the wrapped quotient. -/
def quotientOverflow (n : Nat) : BitVec n := BitVec.intMin n

/-- The configuration of an engine, with what the spec requires of each field and the default it gives. The engine of a
configuration is `Machine.engine` (Family.lean); the names the host fixes (`State.reset`, `exec`, `step`, `core`) are
those of `hardware` (log 1). -/
structure Parameters where
  /-- `WORD_BITS` (R6, D1). -/
  wordBits : Nat
  /-- R6: at least 16 bits. -/
  wordBits_ge : 16 ≤ wordBits
  /-- The Word that DIVIDE gives for `WMIN / -1`, with no fault (R144 (b), U4, D4; log 3). -/
  quotientOverflow : BitVec wordBits := Config.quotientOverflow wordBits
  /-- `RESERVED_OPCODES` (R7, U5, D5; log 2). -/
  reservedOpcodes : List Int := []
  /-- R7, U5: disjoint from the implemented opcodes; any other configuration is refused. -/
  reserved_disjoint : ReservedDisjoint reservedOpcodes

/-- Any list of opcodes: it has no body, so nothing can be proved of its members (log 2). -/
opaque anyOpcodes : List Int

/-- `RESERVED_OPCODES` of this hardware (R7, U5): open, but for what R7 requires. DESIGN CHOICE, safe (log 2). -/
def reservedOpcodes : List Int := anyOpcodes.filter fun k => decide (k ∉ implementedOpcodes)

theorem reservedOpcodes_disjoint : ReservedDisjoint reservedOpcodes := fun _ h => by
  simpa using (List.mem_filter.1 h).2

/-- The configuration of this hardware: the spec's defaults for the width and the overflowing quotient, and an open set
of reserved opcodes. -/
abbrev hardware : Parameters where
  wordBits := 32
  wordBits_ge := by decide
  reservedOpcodes := reservedOpcodes
  reserved_disjoint := reservedOpcodes_disjoint

/-- `WORD_BITS` of this hardware (R6, D1), the default of every width argument below (log 1). -/
abbrev wordBits : Nat := hardware.wordBits

end Sys2Proof.Config
end

