-- ==== Sys2Proof/Word.lean ====
section
/-! DEFINITION. The Word (10_state.md R20, 00_scope.md R8): a signed two's complement integer of `WORD_BITS` bits. -/

namespace Sys2Proof

/-- One Word of `n` bits: the unit of memory, of the registers and of the ports (R20, R60). Its value is `toInt`.
`Word` alone is the Word of this hardware (R6). -/
abbrev Word (n : Nat := Config.wordBits) : Type := BitVec n

/-- `WMIN` for a width of `n` bits (R8). -/
def wmin (n : Nat) : Int := -(2 : Int) ^ (n - 1)

/-- `WMAX` for a width of `n` bits (R8). -/
def wmax (n : Nat) : Int := (2 : Int) ^ (n - 1) - 1

end Sys2Proof
end

