-- ==== Sys2Proof/Machine/Alu.lean ====
section
/-! DEFINITION. The ALU (40_cycle.md R111), written for every width (00_scope.md R6): operands are read as signed
integers, the exact result is computed and then narrowed by `wrap` (R9). No operation sets a flag or traps (R33, R141). -/

namespace Sys2Proof.Machine.Alu

/-- `wrap(v)` (R9): the Word of `n` bits congruent to `v` modulo `2^n`. -/
def wrap (n : Nat) (v : Int) : BitVec n := BitVec.ofInt n v

/-- ADD (R111, R141). -/
def add {n : Nat} (a b : BitVec n) : BitVec n := wrap n (a.toInt + b.toInt)

/-- SUB (R111, R141). -/
def sub {n : Nat} (a b : BitVec n) : BitVec n := wrap n (a.toInt - b.toInt)

/-- MUL (R111, R141). -/
def mul {n : Nat} (a b : BitVec n) : BitVec n := wrap n (a.toInt * b.toInt)

/-- DIV for a divisor that is not zero (R111, R143): the quotient rounded toward zero (`tdiv` of R10). The one
quotient that is no Word, `WMIN / -1`, is the configuration's (R144 (b), U4), by default `WMIN`. -/
def div {n : Nat} (a b : BitVec n) (overflow : BitVec n := Config.quotientOverflow n) : BitVec n :=
  if a.toInt = wmin n ∧ b.toInt = -1 then overflow
  else wrap n (a.toInt.tdiv b.toInt)

/-- DIV100 (R83, R111): the opcode of a Word. -/
def div100 {n : Nat} (w : BitVec n) : BitVec n := wrap n (w.toInt.tdiv Config.operandModulus)

/-- MOD100 (R83, R111): the operand of a Word. -/
def mod100 {n : Nat} (w : BitVec n) : BitVec n := wrap n (w.toInt.tmod Config.operandModulus)

/-- INC (R101, R111): no wrap. -/
def inc (counter : Int) : Int := counter + 1

/-- DEC (R111, R160): the value a taken branch gives `counter`. -/
def dec (operand : Nat) : Int := operand - 1

end Sys2Proof.Machine.Alu
end

