-- ==== Sys2Proof/Syntax.lean ====
section
/-! DEFINITION. The twelve instructions (30_encoding.md R86), one constructor per row of the opcode table.
Every instruction carries the two-digit operand field of its Word (R80): an address, a branch target, or, for HALT,
digits that are decoded and then ignored (R84). -/

namespace Sys2Proof

inductive Instr where
  | read (operand : Nat)
  | write (operand : Nat)
  | load (operand : Nat)
  | store (operand : Nat)
  | add (operand : Nat)
  | subtract (operand : Nat)
  | divide (operand : Nat)
  | multiply (operand : Nat)
  | branch (operand : Nat)
  | branchneg (operand : Nat)
  | branchzero (operand : Nat)
  | halt (operand : Nat)
  deriving DecidableEq, Repr

/-- The operand field of an instruction (R80). -/
def Instr.operand : Instr → Nat
  | .read a => a
  | .write a => a
  | .load a => a
  | .store a => a
  | .add a => a
  | .subtract a => a
  | .divide a => a
  | .multiply a => a
  | .branch a => a
  | .branchneg a => a
  | .branchzero a => a
  | .halt a => a

end Sys2Proof
end

