-- ==== Sys2Proof/WellFormed.lean ====
section
/-! DEFINITION. Which terms of `Instr` are instructions of the machine: the operand field has two decimal digits and
names one of the `MEM_SIZE` addresses (30_encoding.md R80, R85). This is the only condition the format puts on a field. -/

namespace Sys2Proof

/-- The operand is an address `0 .. 99` (R80, R85). -/
abbrev Instr.WellFormed (i : Instr) : Prop := i.operand < Config.memSize

end Sys2Proof
end

