-- ==== Sys2Proof/Decode.lean ====
section
/-! DEFINITION. Decode and encode (30_encoding.md R80 to R96). The format is decimal, so the decoder divides
(R82). Decoding is total; a Word whose opcode has no callable handler is rejected under the name of its lookup (R87).
The set of reserved opcodes is an argument; `decode` takes the machine's own (log 2). -/

namespace Sys2Proof

variable {n : Nat}

/-- A callable handler: one of the twelve of R105. -/
inductive Handler where
  | read | write | load | store | add | subtract | divide | multiply | branch | branchneg | branchzero | halt
  deriving DecidableEq, Repr

/-- A row of the opcode table (R86). -/
structure Row where
  code : Int
  handler : Handler
  deriving DecidableEq, Repr

/-- The opcode table, in the source's order (R86). DIVIDE is 32 and MULTIPLY is 33. -/
def opcodeTable : List Row :=
  [⟨10, .read⟩, ⟨11, .write⟩, ⟨20, .load⟩, ⟨21, .store⟩, ⟨30, .add⟩, ⟨31, .subtract⟩,
   ⟨32, .divide⟩, ⟨33, .multiply⟩, ⟨40, .branch⟩, ⟨41, .branchneg⟩, ⟨42, .branchzero⟩, ⟨43, .halt⟩]

/-- The handler the table has for an opcode, if any (R87). -/
def callable (k : Int) : Option Handler :=
  (opcodeTable.find? (fun r => r.code == k)).map Row.handler

/-- Why an opcode has no callable handler (R88, R89). -/
inductive Rejection where
  | absent
  | reserved
  deriving DecidableEq, Repr

/-- The three-way lookup of R87: `Implemented`, `Reserved`, `Absent`. -/
inductive Lookup where
  | implemented (h : Handler)
  | uncallable (r : Rejection)
  deriving DecidableEq, Repr

/-- The lookup of an opcode the table has no handler for (R87, R88, R89). -/
def rejection (reserved : List Int) (k : Int) : Rejection := if k ∈ reserved then .reserved else .absent

/-- `lookup(k)` (R87). An implemented opcode is looked up first, so a set that is not disjoint from the implemented
opcodes acts as its disjoint part (U5, log 2). -/
def lookup (reserved : List Int) (k : Int) : Lookup :=
  match callable k with
  | some h => .implemented h
  | none => .uncallable (rejection reserved k)

/-- The instruction a handler runs with an operand (R105). -/
def Handler.instr : Handler → Nat → Instr
  | .read, a => .read a
  | .write, a => .write a
  | .load, a => .load a
  | .store, a => .store a
  | .add, a => .add a
  | .subtract, a => .subtract a
  | .divide, a => .divide a
  | .multiply, a => .multiply a
  | .branch, a => .branch a
  | .branchneg, a => .branchneg a
  | .branchzero, a => .branchzero a
  | .halt, a => .halt a

/-- What a Word decodes to: one of the twelve instructions, or a rejection with the opcode (R91). -/
inductive Decoded where
  | instr (i : Instr)
  | rejected (r : Rejection) (opCode : Int)
  deriving DecidableEq, Repr

/-- The instruction, or the rejection, that a looked-up opcode `k` gives with the operand `a` (R91, R105). -/
def Lookup.withFields : Lookup → Int → Int → Decoded
  | .implemented h, _, a => .instr (h.instr a.toNat)
  | .uncallable r, k, _ => .rejected r k

/-- Decode (R83, R87, R95): `opCode` is `tdiv(w, 100)`, `operand` is `tmod(w, 100)`. An operand that reaches an
instruction is in `0 .. 99` (R85). -/
def decodeWith (reserved : List Int) (w : Word n) : Decoded :=
  (lookup reserved (Machine.Alu.div100 w).toInt).withFields (Machine.Alu.div100 w).toInt (Machine.Alu.mod100 w).toInt

/-- The machine's decoder: `decodeWith` at the configuration's reserved opcodes. -/
def decode (w : Word n) : Decoded := decodeWith Config.reservedOpcodes w

/-- The instruction in a decoded Word, if it is one. -/
def Decoded.instr? : Decoded → Option Instr
  | .instr i => some i
  | .rejected _ _ => none

/-- The instruction in the table's Word `w` (log 19). An instruction is one Word (R80), so the bits above `nbits`
are those of `w` itself. -/
def decodeTableWord (_nbits w : Nat) : Option Instr :=
  (decode (BitVec.ofNat Config.wordBits w)).instr?

/-- The opcode of each instruction, from the table of R86. -/
def Instr.opcode : Instr → Int
  | .read _ => 10
  | .write _ => 11
  | .load _ => 20
  | .store _ => 21
  | .add _ => 30
  | .subtract _ => 31
  | .divide _ => 32
  | .multiply _ => 33
  | .branch _ => 40
  | .branchneg _ => 41
  | .branchzero _ => 42
  | .halt _ => 43

/-- `encode(k, a) = k * 100 + a` (R96). -/
def encodeFields (k a : Int) (n : Nat := Config.wordBits) : Word n := Machine.Alu.wrap n (k * Config.operandModulus + a)

/-- The Word of an instruction (R96). -/
def encode (i : Instr) (n : Nat := Config.wordBits) : Word n := encodeFields i.opcode i.operand n

end Sys2Proof
end

