-- ==== Sys2Proof/Machine/Flags.lean ====
section
/-! DEFINITION. There are no flags or condition codes (10_state.md R33). What other machines keep in flags is here the
ALU's tests (40_cycle.md R111), computed when they are used. -/

namespace Sys2Proof.Machine

variable {n : Nat}

/-- The test `< 0` on a Word (R111, R162): signed, that is, its sign bit. -/
def isNegative (w : Word n) : Bool := decide (w.toInt < 0)

/-- The test `== 0` on a Word (R111, R147, R163, R183). -/
def isZero (w : Word n) : Bool := decide (w = 0)

/-- The test `>= MEM_SIZE` on `counter` (R101, R111). -/
def atEndOfMemory (counter : Int) : Bool := decide ((Config.memSize : Int) ≤ counter)

end Sys2Proof.Machine
end

