-- ==== Sys2Proof/Machine/Memory.lean ====
section
/-! DEFINITION. The memory of `MEM_SIZE` Words (20_memory.md R50, R51), as a list of (address, Word) pairs in one
canonical form: addresses strictly rising and below `MEM_SIZE`, and no listed Word equal to what an unlisted address
reads as. A memory cell is a Word and not a byte (R58: no byte-level layout; log 4). The bound check on addresses is
the arbiter's (Ops.lean). -/

namespace Sys2Proof.Machine

variable {n : Nat}

/-- Memory cells: (address, Word). -/
abbrev Memory (n : Nat := Config.wordBits) : Type := List (Nat × Word n)

/-- What an unlisted address reads as: every Word is 0 after power-on (R52). -/
def Memory.unlisted : Word n := 0

/-- The canonical form. -/
abbrev Memory.wf (m : Memory n) : Prop :=
  m.Pairwise (fun c d => c.1 < d.1) ∧ ∀ c ∈ m, c.1 < Config.memSize ∧ c.2 ≠ Memory.unlisted

/-- The Word at an address. -/
def Memory.read : Memory n → Nat → Word n
  | [], _ => Memory.unlisted
  | (k, x) :: rest, a => if k = a then x else Memory.read rest a

/-- Put a cell in front, unless its Word is what an unlisted address reads as. -/
def Memory.cons (a : Nat) (v : Word n) (m : Memory n) : Memory n :=
  if v = Memory.unlisted then m else (a, v) :: m

/-- Write the Word at an address, keeping the canonical form. -/
def Memory.write : Memory n → Nat → Word n → Memory n
  | [], a, v => Memory.cons a v []
  | (k, x) :: rest, a, v =>
    if a < k then Memory.cons a v ((k, x) :: rest)
    else if a = k then Memory.cons a v rest
    else (k, x) :: Memory.write rest a v

/-- The loader's writes `mem[base + i] <- P[i]`, in the order of `i` (R54, R193). -/
def Memory.load : Memory n → Nat → List (Word n) → Memory n
  | m, _, [] => m
  | m, base, w :: ws => Memory.load (m.write base w) (base + 1) ws

end Sys2Proof.Machine
end

