-- ==== Sys2Proof/Machine/State.lean ====
section
/-! DEFINITION. The architectural state (10_state.md R21), its reset values (R36, R241), and the names a step can stop
under. Beside the state of R21 the record holds what stands on the interfaces of R180 (input Words delivered, host
commands issued, the result given back): the model's own fields, logs 5, 7 and 8. -/

namespace Sys2Proof.Machine

variable {n : Nat}

/-- The four states of the control FSM (R30). -/
inductive Fsm where
  | ready
  | running
  | halted
  | faulted
  deriving DecidableEq, Repr

/-- The runtime error kinds, with the payloads of R31 and R210. -/
inductive RuntimeFault where
  /-- A DIVIDE found `mem[a] = 0` (R215). -/
  | divisionByZero (a : Nat)
  /-- The fetched Word's opcode `k` has no callable handler (R216). -/
  | runtimeUnknownOpcode (k : Int)
  /-- The arbiter was asked for an address outside `[0, MEM_SIZE)` (R217); no run reaches it (R56). -/
  | addressOutOfRange (a : Int)
  deriving DecidableEq, Repr

/-- The results of `Validate` (R184). -/
inductive ValidateResult where
  | ok
  | programTooLarge
  | invalidInstructionZero
  | unknownOpcode (k : Int)
  | unimplementedOpcode (k : Int)
  deriving DecidableEq, Repr

/-- The results of `Run` (R191, R196). -/
inductive RunResult where
  | programTooLarge
  | halted
  | faulted (f : RuntimeFault)
  deriving DecidableEq, Repr

/-- The host commands (R180), with the program they carry. -/
inductive Command (n : Nat := Config.wordBits) where
  | powerOn
  | validate (program : List (Word n))
  | run (program : List (Word n))
  deriving DecidableEq, Repr

/-- What the result/status interface carries (R180). -/
inductive CommandResult where
  | validated (r : ValidateResult)
  | ran (r : RunResult)
  deriving DecidableEq, Repr

/-- One engine of a configuration, and its interfaces. `State` alone is the state of this hardware. -/
structure State (cfg : Config.Parameters := Config.hardware) where
  /-- The accumulator (R24). -/
  acc : Word cfg.wordBits
  /-- The program counter (R25): between cycles the next fetch is from `counter + 1`. -/
  counter : Int
  /-- The raw Word most recently fetched (R26). -/
  instruction : Word cfg.wordBits
  /-- The decoded opcode (R27). -/
  opCode : Word cfg.wordBits
  /-- The decoded operand (R28). -/
  operand : Word cfg.wordBits
  /-- The control FSM (R30). -/
  state : Fsm
  /-- The runtime error of the current run (R31). -/
  fault : Option RuntimeFault
  /-- Memory (R50). -/
  mem : Memory cfg.wordBits
  /-- The Words READ has consumed in this run (R35). -/
  inHist : List (Word cfg.wordBits)
  /-- The Words WRITE has emitted in this run (R35). -/
  outHist : List (Word cfg.wordBits)
  /-- The model's own: the Words delivered on the input port and not yet consumed (log 5). -/
  input : List (Word cfg.wordBits)
  /-- The model's own: the host commands issued and not yet served (log 7). -/
  commands : List (Command cfg.wordBits)
  /-- The model's own: what the last command gave back (log 8). -/
  result : Option CommandResult
  deriving DecidableEq, Repr

/-- The reasons a step can stop with a fault: none. Every fault of the spec is an entry into the state Faulted, which
is a next state (R223, log 13), so nothing raises a value of this type. -/
inductive Fault where
  deriving DecidableEq, Repr

/-- The reasons a step can be refused. -/
inductive Refusal where
  /-- Raised by an arm of `exec` whose instruction has no meaning yet. Safe: nothing is claimed of it. No arm of this
  model raises it. -/
  | notModelled (mnemonic : String)
  deriving DecidableEq, Repr

/-- The state right after power-on (R36, R181, R241), in every configuration: a fresh
engine, with nothing on its interfaces
(logs 5, 7, 8). -/
def State.fresh (cfg : Config.Parameters := Config.hardware) : State cfg where
  acc := 0
  counter := -1
  instruction := 0
  opCode := 0
  operand := 0
  state := .ready
  fault := none
  mem := []
  inHist := []
  outHist := []
  input := []
  commands := []
  result := none

/-- The state of this hardware right after power-on. -/
def State.reset : State := State.fresh

end Sys2Proof.Machine
end

