-- ==== Sys2Proof/Machine/Ops.lean ====
section
/-! DEFINITION. The operations every cycle shares: the updates of the registers, the FSM and the ports; the memory
arbiter (20_memory.md R54, R56); and fault entry (60_exceptions.md R223). There is no return from a fault (R226): what
ends Faulted is a host command (HostPort.lean). -/

namespace Sys2Proof.Machine

variable {cfg : Config.Parameters}

/-- The outcome of a handler or a step. -/
abbrev Result (cfg : Config.Parameters := Config.hardware) : Type := Host.Outcome (State cfg) Fault Refusal

/-- `acc <- v`. -/
def State.setAcc (s : State cfg) (v : Word cfg.wordBits) : State cfg := { s with acc := v }

/-- `counter <- c`. -/
def State.setCounter (s : State cfg) (c : Int) : State cfg := { s with counter := c }

/-- What the arbiter leaves after a write. -/
def State.setMem (s : State cfg) (m : Memory cfg.wordBits) : State cfg := { s with mem := m }

/-- `InRecv()` has taken `v`, and `rest` is still to be consumed (00_scope.md R14, 41_io.md R121). -/
def State.receive (s : State cfg) (v : Word cfg.wordBits) (rest : List (Word cfg.wordBits)) : State cfg :=
  { s with input := rest, inHist := s.inHist ++ [v] }

/-- `OutSend(v)` (R14, R122): the output port never refuses. -/
def State.emit (s : State cfg) (v : Word cfg.wordBits) : State cfg := { s with outHist := s.outHist ++ [v] }

/-- Fetch and decode have written their registers (R102, R103): `c` is the address of the Word `w`. -/
def State.latch (s : State cfg) (c : Int) (w : Word cfg.wordBits) : State cfg :=
  { s with counter := c, instruction := w, opCode := Alu.div100 w, operand := Alu.mod100 w }

/-- The run has ended normally (R30, R106), and `Run` gives back `Halted` (R196; log 8). -/
def State.enterHalted (s : State cfg) : State cfg :=
  { s with state := .halted, result := some (.ran .halted) }

/-- Fault entry (R13, R223): `fault <- f`, `state <- Faulted`, and `Run` gives back `Faulted(f)` (R196; log 8).
Nothing else is saved, and every other register keeps its value. -/
def State.enterFaulted (s : State cfg) (f : RuntimeFault) : State cfg :=
  { s with fault := some f, state := .faulted, result := some (.ran (.faulted f)) }

/-- `continue`: the handler returns true and the next cycle follows (R13, R105). -/
def continueRun (s : State cfg) : Result cfg := .next s

/-- `stop` after a normal end (R13, R106). -/
def stopRun (s : State cfg) : Result cfg := .next s.enterHalted

/-- `raise f` (R13, R223). -/
def raise (f : RuntimeFault) (s : State cfg) : Result cfg := .next (s.enterFaulted f)

/-- No cycle and no command takes place: nothing changes (R121, R240; logs 6 and 9). -/
def hold (s : State cfg) : Result cfg := .next s

/-- The arbiter's bound check (R56). -/
def inBounds (a : Int) : Bool := decide (0 ≤ a ∧ a < Config.memSize)

/-- `MemRead(a, 1)` (R12, R56) for a reader that goes on with the Word: the arbiter checks the address, and outside
the address space it performs no access and raises `AddressOutOfRange(a)`. -/
def memRead (a : Int) (s : State cfg) (k : Word cfg.wordBits → Result cfg) : Result cfg :=
  if inBounds a then k (s.mem.read a.toNat) else raise (.addressOutOfRange a) s

/-- `MemWrite(a, 1, v)` (R12, R56) for a writer that goes on with the memory the arbiter leaves. -/
def memWrite (a : Int) (v : Word cfg.wordBits) (s : State cfg) (k : Memory cfg.wordBits → Result cfg) : Result cfg :=
  if inBounds a then k (s.mem.write a.toNat v) else raise (.addressOutOfRange a) s

end Sys2Proof.Machine
end

