-- ==== Sys2Proof/Machine/HostPort.lean ====
section
/-! DEFINITION. What the host and the environment can do (45_host_commands.md): PowerOn, Validate, Run's reset and
load, the snapshot, and the moves that put a command or an input Word on its interface (R180, R203). -/

namespace Sys2Proof.Machine

variable {n : Nat} {cfg : Config.Parameters}

/-- What a lookup of the opcode `k` says of a Word that is not zero (R183). `none` when the Word passes. -/
def checkLookup (k : Int) : Lookup → Option ValidateResult
  | .implemented _ => none
  | .uncallable .absent => some (.unknownOpcode k)
  | .uncallable .reserved => some (.unimplementedOpcode k)

/-- The check of one Word (R183, R222): the zero test before the lookup. `none` when the Word passes. -/
def checkWord (reserved : List Int) (w : Word n) : Option ValidateResult :=
  if isZero w then some .invalidInstructionZero
  else checkLookup (Alu.div100 w).toInt (lookup reserved (Alu.div100 w).toInt)

/-- The scan of R183, step 2: the first failing Word decides, and later Words are not examined. -/
def checkWords (reserved : List Int) : List (Word n) → ValidateResult
  | [] => .ok
  | w :: ws => (checkWord reserved w).getD (checkWords reserved ws)

/-- `Validate(P)` (R182, R183): a pure function of the program and the opcode table. -/
def validate (reserved : List Int) (p : List (Word n)) : ValidateResult :=
  if Config.memSize < p.length then .programTooLarge else checkWords reserved p

/-- `Run(P)` up to its first cycle (R190 to R193, R242): the loader checks the length before anything is changed; then
the registers, `fault` and the histories are reset, `P` is loaded at address 0, and the FSM is Running. `Run` does not
validate (R195), and has given nothing back yet (log 8). -/
def startRun (p : List (Word cfg.wordBits)) (s : State cfg) : Except RunResult (State cfg) :=
  if Config.memSize < p.length then .error .programTooLarge
  else .ok { s with
    acc := 0, counter := -1, instruction := 0, opCode := 0, operand := 0,
    state := .running, fault := none, mem := s.mem.load 0 p,
    inHist := [], outHist := [], result := none }

/-- `PowerOn` (R181, R241): a fresh engine. What the outside world still has on the command and input interfaces is
none of the engine's state and stays (log 15). -/
def powerOn (s : State cfg) : State cfg := { State.fresh cfg with input := s.input, commands := s.commands }

/-- Give a result back to the host (R180; log 8). -/
def State.giveBack (s : State cfg) (r : CommandResult) : State cfg := { s with result := some r }

/-- Go on into the run that has begun, or give back why it has not (R190, R191). -/
def beginOrGiveBack (s : State cfg) : Except RunResult (State cfg) → Result cfg
  | .ok t => .next t
  | .error r => .next (s.giveBack (.ran r))

/-- Serve one host command (R180, R203). -/
def serveCommand (c : Command cfg.wordBits) (s : State cfg) : Result cfg :=
  match c with
  | .powerOn => .next (powerOn s)
  | .validate p => .next (s.giveBack (.validated (validate cfg.reservedOpcodes p)))
  | .run p => beginOrGiveBack s (startRun p s)

/-- A step of an engine that is not Running: it serves the next command, or waits for one (R30, R203, R240; log 9). -/
def serveHost (s : State cfg) : Result cfg :=
  match s.commands with
  | [] => hold s
  | c :: rest => serveCommand c { s with commands := rest }

/-- The host issues a command (R180; log 7). -/
def State.issue (s : State cfg) (c : Command cfg.wordBits) : State cfg := { s with commands := s.commands ++ [c] }

/-- The environment delivers an input Word (R121, R203; log 5). -/
def State.deliver (s : State cfg) (v : Word cfg.wordBits) : State cfg := { s with input := s.input ++ [v] }

/-- What a snapshot shows (R200, D13). -/
structure Snapshot (n : Nat := Config.wordBits) where
  acc : Word n
  counter : Int
  instruction : Word n
  opCode : Word n
  operand : Word n
  state : Fsm
  fault : Option RuntimeFault
  mem : List (Word n)
  deriving DecidableEq, Repr

/-- The snapshot (R200): read-only, and defined only while the engine is not Running. -/
def snapshot (s : State cfg) : Option (Snapshot cfg.wordBits) :=
  if s.state = .running then none
  else some {
    acc := s.acc, counter := s.counter, instruction := s.instruction, opCode := s.opCode,
    operand := s.operand, state := s.state, fault := s.fault,
    mem := (List.range Config.memSize).map s.mem.read }

end Sys2Proof.Machine
end

