-- ==== Sys2Proof/Machine/Cycle.lean ====
section
/-! DEFINITION. One fetch-decode-execute cycle (40_cycle.md R100 to R107), what an engine does in each state of its FSM
(10_state.md R30), and the placing of an instruction Word at the next fetch. -/

namespace Sys2Proof.Machine

variable {cfg : Config.Parameters}

/-- Whether the cycle of an instruction is enabled (R107): a READ needs a delivered input Word (R121). -/
def inputReady (i : Instr) (s : State cfg) : Bool :=
  match i with
  | .read _ => !s.input.isEmpty
  | .write _ | .load _ | .store _ | .add _ | .subtract _ | .divide _ | .multiply _
  | .branch _ | .branchneg _ | .branchzero _ | .halt _ => true

/-- Steps 4 and 5 (R104, R105) on what the Word `w` at the address `c` decodes to; `s` is the state before the cycle.
A rejected opcode raises `RuntimeUnknownOpcode` with no handler called. A READ whose input is not there holds the whole
cycle (R121). `run` selects the handler: `exec`, or `execute` in another configuration. -/
def dispatchDecoded (run : Instr → State cfg → Result cfg) (c : Int) (w : Word cfg.wordBits) (s : State cfg) : Decoded → Result cfg
  | .rejected _ _ => raise (.runtimeUnknownOpcode (s.latch c w).opCode.toInt) (s.latch c w)
  | .instr i => if inputReady i s then run i (s.latch c w) else hold s

/-- `Cycle` (R107). Step 1 pre-increments `counter` and checks the bound (R101); step 2 fetches (R102); step 3 decodes
(R103). -/
def cycle (run : Instr → State cfg → Result cfg) (s : State cfg) : Result cfg :=
  if atEndOfMemory (Alu.inc s.counter) then stopRun (s.setCounter (Alu.inc s.counter))
  else
    memRead (Alu.inc s.counter) (s.setCounter (Alu.inc s.counter)) fun w =>
      dispatchDecoded run (Alu.inc s.counter) w s (decodeWith cfg.reservedOpcodes w)

/-- One step of the engine (R30, R100): a cycle while Running, otherwise the host's next command. -/
def stepEngine (run : Instr → State cfg → Result cfg) (s : State cfg) : Result cfg :=
  match s.state with
  | .running => cycle run s
  | .ready => serveHost s
  | .halted => serveHost s
  | .faulted => serveHost s

/-- The address the next cycle fetches from, or 0 when the engine stands past the end of memory (log 10). -/
def fetchSlot (s : State cfg) : Int := if inBounds (Alu.inc s.counter) then Alu.inc s.counter else 0

/-- The input for one READ: what is there, or, when nothing is, the Word 5 of R121's own example (log 10). -/
def inputForRead (ws : List (Word cfg.wordBits)) : Decoded → List (Word cfg.wordBits)
  | .instr i =>
    match i, ws with
    | .read _, [] => [5]
    | _, _ => ws
  | .rejected _ _ => ws

/-- `s` about to fetch and run the Word `w` (log 10): Running, with `w` where the next cycle fetches, and, for a READ,
an input Word delivered. -/
def placeFetchWord (s : State cfg) (w : Word cfg.wordBits) : State cfg :=
  { s with
    counter := fetchSlot s - 1, state := .running, fault := none, result := none,
    mem := s.mem.write (fetchSlot s).toNat w, input := inputForRead s.input (decodeWith cfg.reservedOpcodes w) }

end Sys2Proof.Machine
end

