-- ==== Sys2Proof/Machine/Operands.lean ====
section
/-! DEFINITION. The operand forms. There is one, the absolute two-digit field (30_encoding.md R84, 42_load_store.md
R130), used in three ways: the address of a Word that is read, the address of a Word that is written, and a branch
target (44_control.md R160). -/

namespace Sys2Proof.Machine

variable {cfg : Config.Parameters}

/-- A handler that reads the Word `mem[a]` and goes on with it. If the arbiter raises a fault, nothing else happens
(R223, R224). -/
def withWordAt (a : Nat) (s : State cfg) (k : Word cfg.wordBits → Result cfg) : Result cfg := memRead a s k

/-- A handler that writes the Word `v` to `mem[a]` and goes on with the memory the arbiter leaves. If the arbiter
raises a fault, nothing else happens (R223, R224; log 11). -/
def storingAt (a : Nat) (v : Word cfg.wordBits) (s : State cfg) (k : Memory cfg.wordBits → Result cfg) : Result cfg := memWrite a v s k

/-- A taken branch: `counter <- operand - 1`, so that the next fetch reads `operand` (R160). -/
def jump (a : Nat) (s : State cfg) : State cfg := s.setCounter (Alu.dec a)

end Sys2Proof.Machine
end

