-- ==== Sys2Proof/Machine/Arithmetic.lean ====
section
/-! DEFINITION. ADD, SUBTRACT, DIVIDE and MULTIPLY (43_arithmetic.md): `acc <- acc OP mem[operand]` (R140). -/

namespace Sys2Proof.Machine

variable {cfg : Config.Parameters}

/-- ADD (R145). -/
def execAdd (a : Nat) (s : State cfg) : Result cfg :=
  withWordAt a s fun m => continueRun (s.setAcc (Alu.add s.acc m))

/-- SUBTRACT (R146): `acc - mem[a]`, not the reverse. -/
def execSubtract (a : Nat) (s : State cfg) : Result cfg :=
  withWordAt a s fun m => continueRun (s.setAcc (Alu.sub s.acc m))

/-- DIVIDE (R147): a zero divisor raises `DivisionByZero(a)` before `acc` is written. `WMIN / -1` gives
the Word of the configuration, with no fault (R144 (b)). -/
def execDivide (a : Nat) (s : State cfg) : Result cfg :=
  withWordAt a s fun d =>
    if isZero d then raise (.divisionByZero a) s
    else continueRun (s.setAcc (Alu.div s.acc d cfg.quotientOverflow))

/-- MULTIPLY (R148): the low `WORD_BITS` bits of the exact signed product. -/
def execMultiply (a : Nat) (s : State cfg) : Result cfg :=
  withWordAt a s fun m => continueRun (s.setAcc (Alu.mul s.acc m))

end Sys2Proof.Machine
end

