-- ==== Sys2Proof/Machine/Control.lean ====
section
/-! DEFINITION. BRANCH, BRANCHNEG, BRANCHZERO and HALT (44_control.md). -/

namespace Sys2Proof.Machine

variable {cfg : Config.Parameters}

/-- BRANCH (R161). -/
def execBranch (a : Nat) (s : State cfg) : Result cfg := continueRun (jump a s)

/-- BRANCHNEG (R162): taken when `acc < 0`, a no-op otherwise. -/
def execBranchneg (a : Nat) (s : State cfg) : Result cfg :=
  if isNegative s.acc then continueRun (jump a s) else continueRun s

/-- BRANCHZERO (R163): taken when `acc == 0`, a no-op otherwise. -/
def execBranchzero (a : Nat) (s : State cfg) : Result cfg :=
  if isZero s.acc then continueRun (jump a s) else continueRun s

/-- HALT (R164): `counter <- MEM_SIZE`, `state <- Halted`; the operand is ignored. -/
def execHalt (s : State cfg) : Result cfg := stopRun (s.setCounter Config.memSize)

end Sys2Proof.Machine
end

