-- ==== Sys2Proof/Machine/InputOutput.lean ====
section
/-! DEFINITION. READ and WRITE (41_io.md). -/

namespace Sys2Proof.Machine

variable {cfg : Config.Parameters}

/-- READ (R121): the next delivered Word goes to `mem[a]` and to `inHist`. While none is delivered the handler waits;
the step holds the whole cycle before it gets here (R121, Cycle.lean; log 6). -/
def execRead (a : Nat) (s : State cfg) : Result cfg :=
  match s.input with
  | [] => hold s
  | v :: rest => storingAt a v s fun m => continueRun ((s.setMem m).receive v rest)

/-- WRITE (R122). -/
def execWrite (a : Nat) (s : State cfg) : Result cfg :=
  withWordAt a s fun v => continueRun (s.emit v)

end Sys2Proof.Machine
end

