-- ==== Sys2Proof/Machine/LoadStore.lean ====
section
/-! DEFINITION. LOAD and STORE (42_load_store.md). -/

namespace Sys2Proof.Machine

variable {cfg : Config.Parameters}

/-- LOAD (R131): `acc <- mem[a]`. -/
def execLoad (a : Nat) (s : State cfg) : Result cfg :=
  withWordAt a s fun v => continueRun (s.setAcc v)

/-- STORE (R132): `mem[a] <- acc`. -/
def execStore (a : Nat) (s : State cfg) : Result cfg :=
  storingAt a s.acc s fun m => continueRun (s.setMem m)

end Sys2Proof.Machine
end

