-- ==== Sys2Proof/Machine/Step.lean ====
section
/-! DEFINITION. The step of the machine, and the host's way to place an instruction Word. -/

namespace Sys2Proof.Machine

/-- One step (40_cycle.md R100, 10_state.md R30). -/
def step (s : State) : Host.Outcome State Fault Refusal := stepEngine exec s

/-- `s` with the table's Word `w` stored where the next step fetches (log 10). An instruction is one Word (R80), so
`nbits` places nothing more. -/
def State.withFetchWord (s : State) (_nbits w : Nat) : State :=
  placeFetchWord s (BitVec.ofNat Config.wordBits w)

end Sys2Proof.Machine
end

