-- ==== Sys2Proof/Machine/Execute.lean ====
section
/-! DEFINITION. The handler select of 40_cycle.md R105 in every configuration. `exec` (Dispatch.lean) is the same
selection in the configuration of this hardware, in the form the host reads. -/

namespace Sys2Proof.Machine

/-- The meaning of an instruction on an engine of any configuration. -/
def execute {cfg : Config.Parameters} (i : Instr) (s : State cfg) : Result cfg :=
  match i with
  | .read a => execRead a s
  | .write a => execWrite a s
  | .load a => execLoad a s
  | .store a => execStore a s
  | .add a => execAdd a s
  | .subtract a => execSubtract a s
  | .divide a => execDivide a s
  | .multiply a => execMultiply a s
  | .branch a => execBranch a s
  | .branchneg a => execBranchneg a s
  | .branchzero a => execBranchzero a s
  | .halt _ => execHalt s

end Sys2Proof.Machine
end

