-- ==== Sys2Proof/Machine/Family.lean ====
section
/-! DEFINITION. The engines of every configuration (00_scope.md R6, R7, 43_arithmetic.md R144). `core` (Core.lean) is the one of `Config.hardware`. -/

namespace Sys2Proof.Machine

/-- One step of an engine of any configuration (R30, R100). -/
def stepAt {cfg : Config.Parameters} (s : State cfg) : Result cfg := stepEngine execute s

/-- The engine of a configuration: its state, its step, and its state after power-on. -/
def engine (p : Config.Parameters) : Host.Core where
  State := State p
  Fault := Fault
  Refusal := Refusal
  step := stepAt
  reset := State.fresh p

end Sys2Proof.Machine
end

