-- ==== Sys2Proof/Safety.lean ====
section
/-! DEFINITION. What claims about a run are stated in: how a run ends (60_exceptions.md R225), what a cycle is about to
fetch (40_cycle.md R101, R102), the spec's formulas for `wrap` and `tdiv`, the invariant of every reachable engine (10_state.md R25, R29, R31, R37), and
the comparison of engines of two configurations (00_scope.md R6). -/

namespace Sys2Proof.Machine

variable {n : Nat} {cfg : Config.Parameters}

/-- The only normal end of a run (R225). -/
def NormalEnd (s : State cfg) : Prop := s.state = .halted ∧ s.fault = none

/-- The run has gone wrong (R225): an end state, but never a good one. -/
def GoneWrong (s : State cfg) : Prop := s.state = .faulted

/-- The next cycle passes the bound check at the address `c` and fetches the Word `w` (R101, R102). -/
def Fetches (s : State cfg) (c : Nat) (w : Word cfg.wordBits) : Prop :=
  s.state = .running ∧ s.counter + 1 = c ∧ c < Config.memSize ∧ s.mem.read c = w

/-- `r` is the Word of `n` bits that `wrap(v)` is, by the formula of 00_scope.md R9. -/
def WrapsTo {n : Nat} (r : BitVec n) (v : Int) : Prop := r.toInt = (v - wmin n) % 2 ^ n + wmin n

/-- `tdiv(a, b)` by the formula of 00_scope.md R10. -/
def truncatedQuotient (a b : Int) : Int := a.sign * b.sign * ((a.natAbs / b.natAbs : Nat) : Int)

/-- What a fault says of the registers and of memory (R37, row Faulted). `AddressOutOfRange` does not occur (R56). -/
def FaultExplained (s : State cfg) : RuntimeFault → Prop
  | .divisionByZero a => s.opCode.toInt = 32 ∧ s.operand.toInt = a ∧ s.mem.read a = 0
  | .runtimeUnknownOpcode k => s.opCode.toInt = k ∧ k ∉ Config.implementedOpcodes
  | .addressOutOfRange _ => False

/-- The invariant of every reachable engine. -/
structure EngineInv (s : State cfg) : Prop where
  /-- Memory is in its canonical form (log 4). -/
  memory_canonical : s.mem.wf
  /-- The decode invariant (R27, R29). -/
  opCode_decoded : s.opCode.toInt = s.instruction.toInt.tdiv 100
  /-- The decode invariant (R28, R29). -/
  operand_decoded : s.operand.toInt = s.instruction.toInt.tmod 100
  /-- `fault != None` exactly when `state = Faulted` (R31). -/
  faulted_iff : s.state = .faulted ↔ s.fault ≠ none
  /-- Ready: the engine is fresh (R37). -/
  ready_fresh : s.state = .ready →
    s.acc = 0 ∧ s.counter = -1 ∧ s.instruction = 0 ∧ s.opCode = 0 ∧ s.operand = 0 ∧
      (∀ a, s.mem.read a = 0) ∧ s.inHist = [] ∧ s.outHist = []
  /-- Running, between cycles (R25, R37). -/
  running_counter : s.state = .running → -1 ≤ s.counter ∧ s.counter < Config.memSize
  /-- The last instruction of a run that goes on was no HALT (R168). -/
  running_opCode : s.state = .running → s.opCode.toInt ≠ 43
  /-- A `Run` that goes on has given nothing back (R196; log 8). -/
  running_result : s.state = .running → s.result = none
  /-- Halted (R25, R37). -/
  halted_counter : s.state = .halted → s.counter = Config.memSize
  /-- Faulted (R25, R37): `counter` is the address of the faulting instruction, which memory still holds. -/
  faulted_explained : ∀ f, s.fault = some f →
    0 ≤ s.counter ∧ s.counter < Config.memSize ∧
      s.instruction = s.mem.read s.counter.toNat ∧ FaultExplained s f

/-! ## Engines of two configurations (R6, R144) -/

/-- The Word of `m` bits with the value of a Word of `n` bits; it is that value whenever `n ≤ m`. -/
def widenWord (m : Nat) (w : Word n) : Word m := Alu.wrap m w.toInt

/-- A command with its program in Words of `m` bits. -/
def Command.widen (m : Nat) : Command n → Command m
  | .powerOn => .powerOn
  | .validate p => .validate (p.map (widenWord m))
  | .run p => .run (p.map (widenWord m))

/-- The engine of the configuration `q` whose every Word has the value it has in `s`. -/
def State.widen (q : Config.Parameters) (s : State cfg) : State q where
  acc := widenWord q.wordBits s.acc
  counter := s.counter
  instruction := widenWord q.wordBits s.instruction
  opCode := widenWord q.wordBits s.opCode
  operand := widenWord q.wordBits s.operand
  state := s.state
  fault := s.fault
  mem := s.mem.map fun c => (c.1, widenWord q.wordBits c.2)
  inHist := s.inHist.map (widenWord q.wordBits)
  outHist := s.outHist.map (widenWord q.wordBits)
  input := s.input.map (widenWord q.wordBits)
  commands := s.commands.map (Command.widen q.wordBits)
  result := s.result

/-- An integer that is a Word of `n` bits (R8). -/
def IsWord (n : Nat) (v : Int) : Prop := wmin n ≤ v ∧ v ≤ wmax n

/-- The exact result of the instruction is a Word, so nothing wraps and no quotient overflows (R9, R141, R144). -/
def WithoutWrap (i : Instr) (s : State cfg) : Prop :=
  match i with
  | .add a => IsWord cfg.wordBits (s.acc.toInt + (s.mem.read a).toInt)
  | .subtract a => IsWord cfg.wordBits (s.acc.toInt - (s.mem.read a).toInt)
  | .multiply a => IsWord cfg.wordBits (s.acc.toInt * (s.mem.read a).toInt)
  | .divide a => IsWord cfg.wordBits (s.acc.toInt.tdiv (s.mem.read a).toInt)
  | .read _ | .write _ | .load _ | .store _ | .branch _ | .branchneg _ | .branchzero _ | .halt _ => True

/-- The next step wraps nothing: the instruction it fetches, if it fetches one, has an exact result that is a Word. -/
def NextWithoutWrap (s : State cfg) : Prop :=
  ∀ (c : Nat) (w : Word cfg.wordBits) (i : Instr), Fetches s c w → decodeWith cfg.reservedOpcodes w = .instr i →
    WithoutWrap i s

end Sys2Proof.Machine
end

