-- ==== Sys2Proof/Certificates/Slice0/Obligations.lean ====
section
/-! DEFINITION. The statements for the provers. Where a statement speaks of `input`, `commands` or `result`, it speaks of
the model's own fields (logs 5, 7 and 8) and is derived. `s.mem.wf` and `EngineInv` are the model's invariants: every
memory operation keeps the first, every step the second, and `State.reset` has both. -/

open Sys2Proof Sys2Proof.Machine

/-! ## Encoding and decode (30_encoding.md) -/

/-- R80, R83, R86, R96: a Word decodes to exactly the well-formed instruction whose Word it is, for every set of
reserved opcodes. -/
def Obligations.DecodeInvertsEncode : Prop :=
  ∀ (reserved : List Int) (w : Word) (i : Instr),
    decodeWith reserved w = .instr i ↔ i.WellFormed ∧ encode i = w

/-- R96: `decode(encode(k, a)) = (k, a)` on two-digit fields, and `encode(decode(w)) = w` for every Word. -/
def Obligations.EncodedFieldsDecodeBack : Prop :=
  (∀ k a : Int, 0 ≤ k → k ≤ 99 → 0 ≤ a → a ≤ 99 →
    (encodeFields k a).toInt = k * 100 + a ∧
    (Alu.div100 (encodeFields k a)).toInt = k ∧ (Alu.mod100 (encodeFields k a)).toInt = a) ∧
  ∀ w : Word, encodeFields (Alu.div100 w).toInt (Alu.mod100 w).toInt = w

/-- R87, R88, R89: the three-way lookup, for every set of reserved opcodes R7 allows. -/
def Obligations.LookupIsThreeWay : Prop :=
  ∀ reserved : List Int, Config.ReservedDisjoint reserved → ∀ k : Int,
    (∀ h, lookup reserved k = .implemented h ↔ (h.instr 0).opcode = k) ∧
    ((∃ h, lookup reserved k = .implemented h) ↔ k ∈ Config.implementedOpcodes) ∧
    (lookup reserved k = .uncallable .reserved ↔ k ∈ reserved) ∧
    (lookup reserved k = .uncallable .absent ↔ k ∉ Config.implementedOpcodes ∧ k ∉ reserved)

/-- R83, R91: every Word is one of the twelve instructions, with the fields `tdiv(w, 100)` and `tmod(w, 100)`, or it is
rejected under its opcode; which of the two does not depend on the reserved set. -/
def Obligations.EveryWordHasOneMeaning : Prop :=
  ∀ (reserved : List Int) (w : Word),
    (w.toInt.tdiv 100 ∈ Config.implementedOpcodes ∧
      ∃ i, (∀ reserved', decodeWith reserved' w = .instr i) ∧ i.WellFormed ∧
        i.opcode = w.toInt.tdiv 100 ∧ (i.operand : Int) = w.toInt.tmod 100) ∨
    (w.toInt.tdiv 100 ∉ Config.implementedOpcodes ∧
      ∃ r, decodeWith reserved w = .rejected r (w.toInt.tdiv 100) ∧
        (r = .reserved ↔ w.toInt.tdiv 100 ∈ reserved))

/-- R85: whenever a handler runs, the decoded operand is the handler's, and is in `0 .. 99`. -/
def Obligations.HandlerOperandIsInRange : Prop :=
  ∀ (reserved : List Int) (w : Word) (i : Instr), decodeWith reserved w = .instr i →
    1000 ≤ w.toInt ∧ (Alu.mod100 w).toInt = i.operand ∧
      0 ≤ (Alu.mod100 w).toInt ∧ (Alu.mod100 w).toInt ≤ 99

/-- R83, R86, R88: Words written out from the tables of the spec. -/
def Obligations.TableWordsDecode : Prop :=
  decode (1007 : Word) = .instr (.read 7) ∧ decode (1109 : Word) = .instr (.write 9) ∧
  decode (2007 : Word) = .instr (.load 7) ∧ decode (2199 : Word) = .instr (.store 99) ∧
  decode (3008 : Word) = .instr (.add 8) ∧ decode (3111 : Word) = .instr (.subtract 11) ∧
  decode (3210 : Word) = .instr (.divide 10) ∧ decode (3308 : Word) = .instr (.multiply 8) ∧
  decode (4005 : Word) = .instr (.branch 5) ∧ decode (4106 : Word) = .instr (.branchneg 6) ∧
  decode (4208 : Word) = .instr (.branchzero 8) ∧ decode (4300 : Word) = .instr (.halt 0) ∧
  decode (4399 : Word) = .instr (.halt 99) ∧ decodeWith [] (-1007 : Word) = .rejected .absent (-10) ∧
  decodeWith [34] (3400 : Word) = .rejected .reserved 34 ∧
  decodeWith [] (10007 : Word) = .rejected .absent 100 ∧ decodeWith [] (99 : Word) = .rejected .absent 0

/-! ## The cycle (40_cycle.md) -/

/-- R101 to R105: when the Word at the next fetch decodes to an instruction whose input is there, the step is `exec` of
it on the state in which `counter`, `instruction`, `opCode` and `operand` have their new values. -/
def Obligations.StepRunsDecodedInstruction : Prop :=
  ∀ (s : State) (c : Nat) (w : Word) (i : Instr), Fetches s c w → decode w = .instr i →
    inputReady i s = true →
    step s = exec i { s with counter := c, instruction := w, opCode := Alu.div100 w, operand := Alu.mod100 w } ∧
      (Alu.div100 w).toInt = w.toInt.tdiv 100 ∧ (Alu.mod100 w).toInt = w.toInt.tmod 100

/-- Every state has a next state, and every instruction gives one: no step of this machine is a fault or a refusal of
the model (R30, R121, R223, R240; logs 6, 9 and 13). -/
def Obligations.EveryStepAnswersNext : Prop :=
  (∀ s : State, ∃ t, step s = .next t) ∧ ∀ (i : Instr) (s : State), ∃ t, exec i s = .next t

/-- R101: the pre-increment, and the halt at the end of memory, which changes nothing else. Between cycles the only
value that fails the check is `MEM_SIZE`, and the lower side needs no check. -/
def Obligations.EndOfMemoryHalts : Prop :=
  (∀ s : State, s.state = .running → (Config.memSize : Int) ≤ s.counter + 1 →
    ∃ t, step s = .next t ∧ t.counter = s.counter + 1 ∧ t.state = .halted ∧
      t.instruction = s.instruction ∧ t.opCode = s.opCode ∧ t.operand = s.operand ∧ t.acc = s.acc ∧
      t.mem = s.mem ∧ t.fault = s.fault ∧ t.inHist = s.inHist ∧ t.outHist = s.outHist ∧ t.input = s.input) ∧
  (∀ s : State, EngineInv s → s.state = .running →
    0 ≤ s.counter + 1 ∧ ((Config.memSize : Int) ≤ s.counter + 1 → s.counter + 1 = Config.memSize))

/-- R216 (and R89, R104): a fetched Word whose opcode is absent or reserved raises `RuntimeUnknownOpcode` with that
opcode, before any handler is called; steps 1 to 3 have written their registers. -/
def Obligations.UncallableOpcodeFaults : Prop :=
  ∀ (s : State) (c : Nat) (w : Word), Fetches s c w → w.toInt.tdiv 100 ∉ Config.implementedOpcodes →
    ∃ t, step s = .next t ∧ t.state = .faulted ∧
      t.fault = some (.runtimeUnknownOpcode (w.toInt.tdiv 100)) ∧
      t.counter = c ∧ t.instruction = w ∧ t.opCode.toInt = w.toInt.tdiv 100 ∧ t.operand.toInt = w.toInt.tmod 100 ∧
      t.acc = s.acc ∧ t.mem = s.mem ∧ t.inHist = s.inHist ∧ t.outHist = s.outHist ∧ t.input = s.input

/-- R106: a run ends in one of four ways, with these end values. -/
def Obligations.RunEndsInFourWays : Prop :=
  ∀ s t : State, EngineInv s → s.state = .running → step s = .next t → t.state ≠ .running →
    (s.counter + 1 = Config.memSize ∧ t.state = .halted ∧ t.counter = Config.memSize ∧ t.fault = none) ∨
    ∃ (c : Nat) (w : Word), Fetches s c w ∧
      ((w.toInt.tdiv 100 ∉ Config.implementedOpcodes ∧ t.state = .faulted ∧ t.counter = c ∧
          t.fault = some (.runtimeUnknownOpcode (w.toInt.tdiv 100))) ∨
       (∃ a, decode w = .instr (.divide a) ∧ s.mem.read a = 0 ∧ t.state = .faulted ∧ t.counter = c ∧
          t.fault = some (.divisionByZero a)) ∨
       (∃ a, decode w = .instr (.halt a) ∧ t.state = .halted ∧ t.counter = Config.memSize ∧ t.fault = none))

/-- R223, R224: a faulting cycle has had no effect but steps 1 to 3. -/
def Obligations.FaultsArePrecise : Prop :=
  ∀ s t : State, s.state = .running → -1 ≤ s.counter → step s = .next t → t.state = .faulted →
    t.counter = s.counter + 1 ∧ t.instruction = s.mem.read (s.counter + 1).toNat ∧
      t.opCode.toInt = t.instruction.toInt.tdiv 100 ∧ t.operand.toInt = t.instruction.toInt.tmod 100 ∧
      t.acc = s.acc ∧ t.mem = s.mem ∧ t.inHist = s.inHist ∧ t.outHist = s.outHist ∧ t.input = s.input

/-- R30: the transitions of the control FSM are those of the table and no others (commands by log 7). -/
def Obligations.FsmTransitionsAreComplete : Prop :=
  ∀ s t : State, step s = .next t →
    (s.state = .running → t.state = .running ∨ t.state = .halted ∨ t.state = .faulted) ∧
    (s.state ≠ .running →
      t.state = s.state ∨
      (t.state = .ready ∧ ∃ rest, s.commands = .powerOn :: rest) ∨
      (t.state = .running ∧ ∃ p rest, s.commands = .run p :: rest ∧ p.length ≤ Config.memSize))

/-- R108: a cycle is determined by the engine's state and the delivered Words. What the host has queued, what was last
given back, and input Words beyond those delivered (if one was delivered at all) change nothing (logs 5, 7 and 8). -/
def Obligations.CycleIgnoresHostAndLaterInput : Prop :=
  ∀ (s t : State) (cs : List Command) (r : Option CommandResult) (more : List Word),
    s.state = .running → (s.input = [] → more = []) → step s = .next t →
    step { s with commands := cs, result := r, input := s.input ++ more } =
      .next { t with
        commands := cs, result := (if t.state = .running then r else t.result), input := t.input ++ more }

/-! ## The twelve instructions (41_io.md to 44_control.md) -/

/-- R121 (queue of delivered Words by log 5, waiting step by log 6): READ stores the next delivered Word and records
it; without one the whole cycle is held, until a Word is delivered. -/
def Obligations.ReadStoresTheDeliveredWord : Prop :=
  ∀ a : Nat, a < Config.memSize →
    (∀ reserved, decodeWith reserved (BitVec.ofNat Config.wordBits (1000 + a)) = .instr (.read a)) ∧
    (∀ (s : State) (v : Word) (rest : List Word), s.mem.wf → s.input = v :: rest →
      ∃ m, exec (.read a) s = .next { s with mem := m, input := rest, inHist := s.inHist ++ [v] } ∧
        m.read a = v ∧ ∀ b, b ≠ a → m.read b = s.mem.read b) ∧
    (∀ (s : State) (c : Nat), Fetches s c (BitVec.ofNat Config.wordBits (1000 + a)) → s.input = [] →
      step s = .next s ∧
        ∀ v, step (s.deliver v) =
          exec (.read a) ((s.deliver v).latch c (BitVec.ofNat Config.wordBits (1000 + a))))

/-- R122: WRITE. -/
def Obligations.WriteEmitsTheAddressedWord : Prop :=
  ∀ a : Nat, a < Config.memSize →
    (∀ reserved, decodeWith reserved (BitVec.ofNat Config.wordBits (1100 + a)) = .instr (.write a)) ∧
    ∀ s : State, exec (.write a) s = .next { s with outHist := s.outHist ++ [s.mem.read a] }

/-- R131: LOAD. -/
def Obligations.LoadCopiesTheAddressedWord : Prop :=
  ∀ a : Nat, a < Config.memSize →
    (∀ reserved, decodeWith reserved (BitVec.ofNat Config.wordBits (2000 + a)) = .instr (.load a)) ∧
    ∀ s : State, exec (.load a) s = .next { s with acc := s.mem.read a }

/-- R132: STORE, and its frame: every other Word of memory reads as before. -/
def Obligations.StoreWritesTheAccumulator : Prop :=
  ∀ a : Nat, a < Config.memSize →
    (∀ reserved, decodeWith reserved (BitVec.ofNat Config.wordBits (2100 + a)) = .instr (.store a)) ∧
    ∀ s : State, s.mem.wf →
      ∃ m, exec (.store a) s = .next { s with mem := m } ∧
        m.read a = s.acc ∧ ∀ b, b ≠ a → m.read b = s.mem.read b

/-- R145: ADD. -/
def Obligations.AddWrapsTheSum : Prop :=
  ∀ a : Nat, a < Config.memSize →
    (∀ reserved, decodeWith reserved (BitVec.ofNat Config.wordBits (3000 + a)) = .instr (.add a)) ∧
    ∀ s : State, ∃ r : Word, exec (.add a) s = .next { s with acc := r } ∧
      WrapsTo r (s.acc.toInt + (s.mem.read a).toInt)

/-- R146: SUBTRACT. -/
def Obligations.SubtractWrapsTheDifference : Prop :=
  ∀ a : Nat, a < Config.memSize →
    (∀ reserved, decodeWith reserved (BitVec.ofNat Config.wordBits (3100 + a)) = .instr (.subtract a)) ∧
    ∀ s : State, ∃ r : Word, exec (.subtract a) s = .next { s with acc := r } ∧
      WrapsTo r (s.acc.toInt - (s.mem.read a).toInt)

/-- R147: DIVIDE by a divisor that is not zero (`WMIN / -1` among them, whose value is log 3), and the fault on a zero
divisor, which leaves `acc` and memory as they were and `counter` at the DIVIDE's own address. -/
def Obligations.DivideTruncatesOrFaults : Prop :=
  ∀ a : Nat, a < Config.memSize →
    (∀ reserved, decodeWith reserved (BitVec.ofNat Config.wordBits (3200 + a)) = .instr (.divide a)) ∧
    (∀ s : State, s.mem.read a ≠ 0 →
      ∃ r : Word, exec (.divide a) s = .next { s with acc := r } ∧
        WrapsTo r (truncatedQuotient s.acc.toInt (s.mem.read a).toInt)) ∧
    (∀ (s : State) (c : Nat), Fetches s c (BitVec.ofNat Config.wordBits (3200 + a)) → s.mem.read a = 0 →
      ∃ t, step s = .next t ∧ t.state = .faulted ∧ t.fault = some (.divisionByZero a) ∧ t.counter = c ∧
        t.instruction = BitVec.ofNat Config.wordBits (3200 + a) ∧ t.opCode.toInt = 32 ∧ t.operand.toInt = a ∧
        t.acc = s.acc ∧ t.mem = s.mem ∧ t.inHist = s.inHist ∧ t.outHist = s.outHist)

/-- R148: MULTIPLY. -/
def Obligations.MultiplyWrapsTheProduct : Prop :=
  ∀ a : Nat, a < Config.memSize →
    (∀ reserved, decodeWith reserved (BitVec.ofNat Config.wordBits (3300 + a)) = .instr (.multiply a)) ∧
    ∀ s : State, ∃ r : Word, exec (.multiply a) s = .next { s with acc := r } ∧
      WrapsTo r (s.acc.toInt * (s.mem.read a).toInt)

/-- R161: BRANCH. -/
def Obligations.BranchSetsTheCounter : Prop :=
  ∀ a : Nat, a < Config.memSize →
    (∀ reserved, decodeWith reserved (BitVec.ofNat Config.wordBits (4000 + a)) = .instr (.branch a)) ∧
    ∀ s : State, exec (.branch a) s = .next { s with counter := (a : Int) - 1 }

/-- R162: BRANCHNEG tests the sign bit of `acc`. -/
def Obligations.BranchnegTestsTheSign : Prop :=
  ∀ a : Nat, a < Config.memSize →
    (∀ reserved, decodeWith reserved (BitVec.ofNat Config.wordBits (4100 + a)) = .instr (.branchneg a)) ∧
    ∀ s : State,
      (s.acc.toInt < 0 → exec (.branchneg a) s = .next { s with counter := (a : Int) - 1 }) ∧
      (0 ≤ s.acc.toInt → exec (.branchneg a) s = .next s) ∧
      (s.acc.toInt < 0 ↔ s.acc.msb = true)

/-- R163: BRANCHZERO. -/
def Obligations.BranchzeroTestsForZero : Prop :=
  ∀ a : Nat, a < Config.memSize →
    (∀ reserved, decodeWith reserved (BitVec.ofNat Config.wordBits (4200 + a)) = .instr (.branchzero a)) ∧
    ∀ s : State,
      (s.acc.toInt = 0 → exec (.branchzero a) s = .next { s with counter := (a : Int) - 1 }) ∧
      (s.acc.toInt ≠ 0 → exec (.branchzero a) s = .next s)

/-- R164: HALT, whatever its operand digits. -/
def Obligations.HaltEndsTheRun : Prop :=
  ∀ a : Nat, a < Config.memSize →
    (∀ reserved, decodeWith reserved (BitVec.ofNat Config.wordBits (4300 + a)) = .instr (.halt a)) ∧
    ∀ s : State, ∃ t, exec (.halt a) s = .next t ∧ t.counter = Config.memSize ∧ t.state = .halted ∧
      t.fault = s.fault ∧ t.acc = s.acc ∧ t.mem = s.mem ∧ t.inHist = s.inHist ∧ t.outHist = s.outHist ∧
      t.instruction = s.instruction ∧ t.opCode = s.opCode ∧ t.operand = s.operand ∧ t.input = s.input

/-- R165: the branch summary, as whole cycles, with the address of the next fetch. -/
def Obligations.BranchSummaryHolds : Prop :=
  ∀ (s : State) (c a : Nat), a < Config.memSize →
    let falls := fun t : State => t.counter = c ∧ t.state = .running ∧
      (c + 1 < Config.memSize → Fetches t (c + 1) (t.mem.read (c + 1))) ∧
      (c + 1 = Config.memSize → t.counter + 1 = Config.memSize)
    let jumps := fun t : State => t.counter = (a : Int) - 1 ∧ Fetches t a (t.mem.read a)
    (Fetches s c (BitVec.ofNat Config.wordBits (4000 + a)) → ∃ t, step s = .next t ∧ jumps t) ∧
    (Fetches s c (BitVec.ofNat Config.wordBits (4100 + a)) →
      (s.acc.toInt < 0 → ∃ t, step s = .next t ∧ jumps t) ∧
      (0 ≤ s.acc.toInt → ∃ t, step s = .next t ∧ falls t)) ∧
    (Fetches s c (BitVec.ofNat Config.wordBits (4200 + a)) →
      (s.acc.toInt = 0 → ∃ t, step s = .next t ∧ jumps t) ∧
      (s.acc.toInt ≠ 0 → ∃ t, step s = .next t ∧ falls t)) ∧
    (Fetches s c (BitVec.ofNat Config.wordBits (4300 + a)) →
      ∃ t, step s = .next t ∧ t.counter = Config.memSize ∧ t.state = .halted)

/-- R133: LOAD then STORE, and STORE then LOAD, at one address. -/
def Obligations.LoadAndStoreRoundTrip : Prop :=
  ∀ (a : Nat) (s : State), a < Config.memSize → s.mem.wf →
    (∃ t u, exec (.load a) s = .next t ∧ exec (.store a) t = .next u ∧
      u.mem = s.mem ∧ u.acc = s.mem.read a) ∧
    (∃ t u, exec (.store a) s = .next t ∧ exec (.load a) t = .next u ∧
      u.acc = s.acc ∧ u.mem.read a = s.acc)

/-- What each instruction leaves unchanged (R24 to R28, R30 to R33, R53, R120, R130, R140, R160): the operand form is
the well-formed one. -/
def Obligations.HandlersWriteOnlyTheirTargets : Prop :=
  ∀ (i : Instr) (s t : State), i.WellFormed → s.mem.wf → exec i s = .next t →
    t.instruction = s.instruction ∧ t.opCode = s.opCode ∧ t.operand = s.operand ∧ t.commands = s.commands ∧
    (t.acc ≠ s.acc → i.opcode ∈ [20, 30, 31, 32, 33]) ∧
    (t.counter ≠ s.counter → i.opcode ∈ [40, 41, 42, 43]) ∧
    (t.state ≠ s.state → i.opcode ∈ [32, 43]) ∧
    (t.fault ≠ s.fault → i.opcode = 32) ∧
    (t.result ≠ s.result → i.opcode ∈ [32, 43]) ∧
    (∀ b, t.mem.read b ≠ s.mem.read b → i.operand = b ∧ i.opcode ∈ [10, 21]) ∧
    (t.inHist ≠ s.inHist ∨ t.input ≠ s.input → i.opcode = 10) ∧
    (t.outHist ≠ s.outHist → i.opcode = 11)

/-- R12, R56 (the term is no instruction of the machine; log 11): the eight instructions that access memory, with an
operand past the address space, raise `AddressOutOfRange` and do nothing else. -/
def Obligations.OperandPastMemoryFaults : Prop :=
  ∀ (i : Instr) (s : State), Config.memSize ≤ i.operand →
    i.opcode ∈ [10, 11, 20, 21, 30, 31, 32, 33] → inputReady i s = true →
    ∃ t, exec i s = .next t ∧ t.fault = some (.addressOutOfRange i.operand) ∧ t.state = .faulted ∧
      t.counter = s.counter ∧ t.acc = s.acc ∧ t.mem = s.mem ∧ t.inHist = s.inHist ∧ t.outHist = s.outHist ∧
      t.input = s.input

/-! ## The ALU (00_scope.md R9, R10, 40_cycle.md R111, 43_arithmetic.md) -/

/-- R9: `wrap`, at every width. -/
def Obligations.WrapIsTheCongruentWord : Prop :=
  ∀ (n : Nat) (v : Int), 0 < n →
    WrapsTo (Alu.wrap n v) v ∧
    wmin n ≤ (Alu.wrap n v).toInt ∧ (Alu.wrap n v).toInt ≤ wmax n ∧
    (2 ^ n : Int) ∣ v - (Alu.wrap n v).toInt ∧
    (∀ x : Int, wmin n ≤ x → x ≤ wmax n → (2 ^ n : Int) ∣ v - x → x = (Alu.wrap n v).toInt) ∧
    (wmin n ≤ v → v ≤ wmax n → (Alu.wrap n v).toInt = v)

/-- R111, R141 to R144: at every width each operation is the exact result, wrapped; DIV rounds toward zero, and its one
overflowing quotient wraps too (log 3). -/
def Obligations.AluComputesExactlyThenWraps : Prop :=
  ∀ (n : Nat) (a b : BitVec n), 0 < n →
    WrapsTo (Alu.add a b) (a.toInt + b.toInt) ∧
    WrapsTo (Alu.sub a b) (a.toInt - b.toInt) ∧
    WrapsTo (Alu.mul a b) (a.toInt * b.toInt) ∧
    (b ≠ 0 → WrapsTo (Alu.div a b) (truncatedQuotient a.toInt b.toInt)) ∧
    Alu.add a b = Alu.add b a ∧ Alu.mul a b = Alu.mul b a

/-- R10, R143, R144: the quotient of DIV leaves a remainder that is zero or has the dividend's sign and is smaller than
the divisor, but for `WMIN / -1`, which gives `WMIN` (log 3). -/
def Obligations.DivisionRoundsTowardZero : Prop :=
  ∀ (n : Nat) (a b : BitVec n), 0 < n → b ≠ 0 →
    (¬(a.toInt = wmin n ∧ b.toInt = -1) →
      (a.toInt - b.toInt * (Alu.div a b).toInt = 0 ∨
        (a.toInt - b.toInt * (Alu.div a b).toInt).sign = a.toInt.sign) ∧
      (a.toInt - b.toInt * (Alu.div a b).toInt).natAbs < b.toInt.natAbs) ∧
    (a.toInt = wmin n ∧ b.toInt = -1 → (Alu.div a b).toInt = wmin n)

/-! ## Memory, ports and frames of a whole cycle (20_memory.md, 41_io.md) -/

/-- R53, R55: a cycle changes a Word of memory only by a READ of the delivered Word to it, or a STORE of `acc` to it. -/
def Obligations.OnlyReadAndStoreWriteMemory : Prop :=
  ∀ s t : State, s.mem.wf → s.state = .running → step s = .next t →
    ∀ b, t.mem.read b ≠ s.mem.read b →
      ∃ (c : Nat) (w : Word), Fetches s c w ∧
        ((decode w = .instr (.read b) ∧ s.input.head? = some (t.mem.read b)) ∨
         (decode w = .instr (.store b) ∧ t.mem.read b = s.acc))

/-- R68: fetch is coherent with STORE and READ. The instruction that writes its own Word completes with the old one,
and the Word written to the next address is the next one fetched. -/
def Obligations.FetchSeesTheLatestWrite : Prop :=
  ∀ (s : State) (c a : Nat) (w : Word), s.mem.wf → Fetches s c w →
    (decode w = .instr (.store a) →
      ∃ t, step s = .next t ∧ t.instruction = w ∧ t.mem.read a = s.acc ∧
        (a = c + 1 → Fetches t a s.acc) ∧ (a ≠ c + 1 → c + 1 < Config.memSize → Fetches t (c + 1) (s.mem.read (c + 1)))) ∧
    (∀ v rest, decode w = .instr (.read a) → s.input = v :: rest →
      ∃ t, step s = .next t ∧ t.instruction = w ∧ t.mem.read a = v ∧
        (a = c + 1 → Fetches t a v) ∧ (a ≠ c + 1 → c + 1 < Config.memSize → Fetches t (c + 1) (s.mem.read (c + 1))))

/-- R123, R203 (log 5): in a cycle the Words consumed and the Words still to come are together the Words that were
delivered, READ takes the next of them, and WRITE appends the addressed Word to the output. -/
def Obligations.TransfersFollowExecutionOrder : Prop :=
  ∀ s t : State, s.state = .running → step s = .next t →
    t.inHist ++ t.input = s.inHist ++ s.input ∧
    (t.inHist ≠ s.inHist → ∃ (c : Nat) (w : Word) (a : Nat) (v : Word),
      Fetches s c w ∧ decode w = .instr (.read a) ∧ s.input.head? = some v ∧ t.inHist = s.inHist ++ [v]) ∧
    (t.outHist ≠ s.outHist → ∃ (c : Nat) (w : Word) (a : Nat),
      Fetches s c w ∧ decode w = .instr (.write a) ∧ t.outHist = s.outHist ++ [s.mem.read a])

/-- R56, R217: the arbiter checks every address; and no cycle of a run, not even of one that holds ill-formed data, can
fail the check. -/
def Obligations.ArbiterChecksEveryAddress : Prop :=
  (∀ (a : Int) (v : Word) (s : State) (k : Word → Result) (k' : Memory → Result),
    0 ≤ a → a < Config.memSize →
      memRead a s k = k (s.mem.read a.toNat) ∧ memWrite a v s k' = k' (s.mem.write a.toNat v)) ∧
  (∀ (a : Int) (v : Word) (s : State) (k : Word → Result) (k' : Memory → Result),
    a < 0 ∨ (Config.memSize : Int) ≤ a →
      memRead a s k = raise (.addressOutOfRange a) s ∧ memWrite a v s k' = raise (.addressOutOfRange a) s) ∧
  (∀ (s t : State) (a : Int), s.state = .running → -1 ≤ s.counter → step s = .next t →
    t.fault = some (.addressOutOfRange a) → s.fault = t.fault)

/-! ## Reset, host commands, snapshot (45_host_commands.md, 70_reset_and_hazards.md) -/

/-- R241: the state after power-on. -/
def Obligations.ResetIsTheFreshEngine : Prop :=
  State.reset.acc = 0 ∧ State.reset.counter = -1 ∧ State.reset.instruction = 0 ∧ State.reset.opCode = 0 ∧
    State.reset.operand = 0 ∧ State.reset.state = .ready ∧ State.reset.fault = none ∧
    (∀ a, a < Config.memSize → State.reset.mem.read a = 0) ∧
    State.reset.inHist = [] ∧ State.reset.outHist = []

/-- R242, R194: the reset and load at the start of `Run`. -/
def Obligations.RunResetsRegistersAndLoads : Prop :=
  ∀ (p : List Word) (s : State), s.mem.wf → p.length ≤ Config.memSize →
    ∃ t, startRun p s = .ok t ∧ t.acc = 0 ∧ t.counter = -1 ∧ t.instruction = 0 ∧ t.opCode = 0 ∧ t.operand = 0 ∧
      t.state = .running ∧ t.fault = none ∧ t.inHist = [] ∧ t.outHist = [] ∧ t.mem.wf ∧
      (∀ (i : Nat) (h : i < p.length), t.mem.read i = p[i]) ∧
      (∀ a, p.length ≤ a → t.mem.read a = s.mem.read a)

/-- R181, R182, R190, R191, R203, R240 (commands, results and one step a command by logs 7, 8, 9, 12 and 15): what a
step of an engine that is not Running does. -/
def Obligations.HostCommandsAreServed : Prop :=
  ∀ (s : State) (rest : List Command), s.state ≠ .running →
    (s.commands = .powerOn :: rest →
      step s = .next { State.reset with input := s.input, commands := rest }) ∧
    (∀ p, s.commands = .validate p :: rest →
      step s = .next { s with
        commands := rest, result := some (.validated (validate Config.reservedOpcodes p)) }) ∧
    (∀ p, s.commands = .run p :: rest → Config.memSize < p.length →
      step s = .next { s with commands := rest, result := some (.ran .programTooLarge) }) ∧
    (∀ p, s.commands = .run p :: rest → p.length ≤ Config.memSize →
      ∃ t, startRun p { s with commands := rest } = .ok t ∧ step s = .next t) ∧
    (s.commands = [] → step s = .next s)

/-- R184, R222: the results of `Validate`, the first failing Word deciding, for every reserved set R7 allows. -/
def Obligations.ValidateReportsTheFirstFailure : Prop :=
  ∀ (reserved : List Int) (p : List Word), Config.ReservedDisjoint reserved →
    (validate reserved p = .programTooLarge ↔ Config.memSize < p.length) ∧
    (validate reserved p = .ok ↔
      p.length ≤ Config.memSize ∧ ∀ w ∈ p, w.toInt.tdiv 100 ∈ Config.implementedOpcodes) ∧
    (∀ (front : List Word) (w : Word) (later : List Word), p.length ≤ Config.memSize → p = front ++ w :: later →
      (∀ x ∈ front, x.toInt.tdiv 100 ∈ Config.implementedOpcodes) →
      (w.toInt = 0 → validate reserved p = .invalidInstructionZero) ∧
      (w.toInt ≠ 0 → w.toInt.tdiv 100 ∈ reserved →
        validate reserved p = .unimplementedOpcode (w.toInt.tdiv 100)) ∧
      (w.toInt ≠ 0 → w.toInt.tdiv 100 ∉ Config.implementedOpcodes → w.toInt.tdiv 100 ∉ reserved →
        validate reserved p = .unknownOpcode (w.toInt.tdiv 100)))

/-- R89, D5: the reserved set only chooses between two names of a validation error; it changes no instruction and no
other result of `Validate`. -/
def Obligations.ReservedSetOnlyNamesErrors : Prop :=
  ∀ reserved reserved' : List Int,
    (∀ (w : Word) (i : Instr), decodeWith reserved w = .instr i → decodeWith reserved' w = .instr i) ∧
    ∀ p : List Word,
      (validate reserved p = .ok → validate reserved' p = .ok) ∧
      (validate reserved p = .programTooLarge → validate reserved' p = .programTooLarge) ∧
      (validate reserved p = .invalidInstructionZero → validate reserved' p = .invalidInstructionZero) ∧
      (∀ k, validate reserved p = .unknownOpcode k →
        validate reserved' p = .unknownOpcode k ∨ validate reserved' p = .unimplementedOpcode k)

/-- R246: what `Validate(P) = Ok` guarantees. The load succeeds with implemented opcodes in place, and a cycle that
fetches a Word of `P` that still stands where it was loaded raises no lookup fault. -/
def Obligations.ValidatedWordsRaiseNoLookupFault : Prop :=
  ∀ (reserved : List Int) (p : List Word), validate reserved p = .ok →
    (∀ s : State, s.mem.wf → ∃ t, startRun p s = .ok t ∧
      ∀ i, i < p.length → (t.mem.read i).toInt.tdiv 100 ∈ Config.implementedOpcodes) ∧
    (∀ (s t : State) (c : Nat) (h : c < p.length) (k : Int), Fetches s c p[c] → s.fault = none →
      step s = .next t → t.fault ≠ some (.runtimeUnknownOpcode k))

/-- R196 (kept in `result` by log 8): what a cycle gives back. -/
def Obligations.RunGivesBackItsEnd : Prop :=
  ∀ s t : State, s.state = .running → step s = .next t →
    (t.state = .running → t.result = s.result ∧ t.fault = s.fault) ∧
    (t.state = .halted → t.result = some (.ran .halted)) ∧
    (t.state = .faulted → ∃ f, t.fault = some f ∧ t.result = some (.ran (.faulted f)))

/-- R168: the two ways to reach Halted, told apart by `opCode`. -/
def Obligations.OpcodeTellsHaltFromEndOfMemory : Prop :=
  ∀ s t : State, EngineInv s → s.state = .running → step s = .next t → t.state = .halted →
    t.counter = Config.memSize ∧ t.fault = none ∧
    ((t.opCode.toInt = 43 ∧ ∃ (c : Nat) (w : Word) (a : Nat), Fetches s c w ∧ decode w = .instr (.halt a)) ∨
     (t.opCode.toInt ≠ 43 ∧ s.counter + 1 = Config.memSize ∧ t.instruction = s.instruction ∧
       t.opCode = s.opCode ∧ t.operand = s.operand))

/-- R240, R226 (waiting step by log 9): an engine that is not Running keeps everything for as long as the host is silent. -/
def Obligations.StoppedEngineKeepsEverything : Prop :=
  ∀ (k : Nat) (s : State), s.state ≠ .running → s.commands = [] → Host.Core.run core k s = .next s

/-- R200, D13: the snapshot. -/
def Obligations.SnapshotShowsTheStoppedEngine : Prop :=
  (∀ s : State, s.state = .running → snapshot s = none) ∧
  (∀ s : State, s.state ≠ .running → ∃ n, snapshot s = some n ∧
    n.acc = s.acc ∧ n.counter = s.counter ∧ n.instruction = s.instruction ∧ n.opCode = s.opCode ∧
    n.operand = s.operand ∧ n.state = s.state ∧ n.fault = s.fault ∧ n.mem.length = Config.memSize ∧
    ∀ a, a < Config.memSize → n.mem[a]? = some (s.mem.read a))

/-- The model's own (log 10): a Word placed by `withFetchWord` is the next one fetched, and the next step runs it. -/
def Obligations.PlacedWordRunsNext : Prop :=
  ∀ (s : State) (nbits w : Nat) (i : Instr), s.mem.wf → decodeTableWord nbits w = some i →
    ∃ c, Fetches (s.withFetchWord nbits w) c (BitVec.ofNat Config.wordBits w) ∧
      step (s.withFetchWord nbits w) =
        exec i ((s.withFetchWord nbits w).latch c (BitVec.ofNat Config.wordBits w))

/-! ## The invariant of every reachable engine (10_state.md R37) -/

/-- The fresh engine meets the invariant (R36, R37). -/
def Obligations.ResetMeetsEngineInvariant : Prop := EngineInv State.reset

/-- R25, R29, R31, R37: every step keeps the invariant. -/
def Obligations.StepKeepsEngineInvariant : Prop :=
  ∀ s t : State, EngineInv s → step s = .next t → EngineInv t

/-- R203: the host's and the environment's moves keep the invariant too (logs 5 and 7), so that it holds along every
history. -/
def Obligations.OutsideMovesKeepEngineInvariant : Prop :=
  ∀ s : State, EngineInv s →
    (∀ c, EngineInv (s.issue c)) ∧ (∀ v, EngineInv (s.deliver v))

/-- R37, R106: from every engine that meets the invariant a run of any number of steps goes on to a state that meets
it, and to none that the model cannot answer for. -/
def Obligations.RunsStayInTheInvariant : Prop :=
  ∀ (k : Nat) (s : State), EngineInv s →
    ∃ t, Host.Core.run core k s = .next t ∧ EngineInv t

/-! ## Every configuration (00_scope.md R6, R7, 43_arithmetic.md R144, 92_eei_decisions.md D1, D4, D5)

`p` is a configuration: a width of at least 16 bits, the Word that `WMIN / -1` gives, and a set of reserved opcodes that is
disjoint from the implemented ones. `stepAt` and `execute` are the step and the meanings in every configuration, and `step`
and `exec` those of `Config.hardware`. -/

/-- R6, R7, R144: the width of a configuration is at least 16 and its reserved opcodes are disjoint from the implemented
ones; this hardware has 32 bits and gives `WMIN` for `WMIN / -1` (the spec's defaults), and `exec`, `step` and `core` are the
members of the family at it. -/
def Obligations.HardwareIsTheDefaultEngine : Prop :=
  (∀ p : Config.Parameters, 16 ≤ p.wordBits ∧ Config.ReservedDisjoint p.reservedOpcodes) ∧
  Config.hardware.wordBits = 32 ∧ Config.hardware.quotientOverflow.toInt = wmin Config.hardware.wordBits ∧
  (∀ (i : Instr) (s : State), exec i s = execute i s) ∧ (∀ s : State, step s = stepAt s) ∧
  core = engine Config.hardware

/-- R6, R80, R83, R96 at every width: a Word decodes to exactly the well-formed instruction whose Word it is, and every
Word is the encoding of its two fields. -/
def Obligations.EveryWidthDecodesItsEncodings : Prop :=
  ∀ (p : Config.Parameters) (reserved : List Int) (w : Word p.wordBits),
    (∀ i, decodeWith reserved w = .instr i ↔ i.WellFormed ∧ encode i p.wordBits = w) ∧
    (Alu.div100 w).toInt = w.toInt.tdiv 100 ∧ (Alu.mod100 w).toInt = w.toInt.tmod 100 ∧
    encodeFields (Alu.div100 w).toInt (Alu.mod100 w).toInt p.wordBits = w

/-- R6, R101 to R105 at every width: a cycle that fetches an instruction whose input is there runs its meaning on the
state after decode, one that fetches any other Word faults, and past the end of memory it halts (results: log 8). -/
def Obligations.EveryWidthRunsTheFetchedWord : Prop :=
  ∀ (p : Config.Parameters) (s : State p),
    (∀ (c : Nat) (w : Word p.wordBits), Fetches s c w →
      (∀ i, decodeWith p.reservedOpcodes w = .instr i → inputReady i s = true → stepAt s = execute i (s.latch c w)) ∧
      (w.toInt.tdiv 100 ∉ Config.implementedOpcodes →
        stepAt s = .next ((s.latch c w).enterFaulted (.runtimeUnknownOpcode (w.toInt.tdiv 100))))) ∧
    (s.state = .running → (Config.memSize : Int) ≤ s.counter + 1 →
      stepAt s = .next (s.setCounter (s.counter + 1)).enterHalted)

/-- R6, R121, R122, R131, R132, R145 to R148, R161 to R164 at every width: what each of the twelve instructions does
(input by log 5, results given back by log 8; `WMIN / -1` gives the Word of the configuration, log 3). -/
def Obligations.EveryWidthRunsTheTwelve : Prop :=
  ∀ (p : Config.Parameters) (s : State p) (a : Nat), a < Config.memSize → s.mem.wf →
    (∀ v rest, s.input = v :: rest → ∃ m,
      execute (.read a) s = .next { s with mem := m, input := rest, inHist := s.inHist ++ [v] } ∧
        m.read a = v ∧ ∀ b, b ≠ a → m.read b = s.mem.read b) ∧
    execute (.write a) s = .next { s with outHist := s.outHist ++ [s.mem.read a] } ∧
    execute (.load a) s = .next { s with acc := s.mem.read a } ∧
    (∃ m, execute (.store a) s = .next { s with mem := m } ∧
      m.read a = s.acc ∧ ∀ b, b ≠ a → m.read b = s.mem.read b) ∧
    (∃ r, execute (.add a) s = .next { s with acc := r } ∧ WrapsTo r (s.acc.toInt + (s.mem.read a).toInt)) ∧
    (∃ r, execute (.subtract a) s = .next { s with acc := r } ∧ WrapsTo r (s.acc.toInt - (s.mem.read a).toInt)) ∧
    (∃ r, execute (.multiply a) s = .next { s with acc := r } ∧ WrapsTo r (s.acc.toInt * (s.mem.read a).toInt)) ∧
    (s.mem.read a ≠ 0 → ¬(s.acc.toInt = wmin p.wordBits ∧ (s.mem.read a).toInt = -1) →
      ∃ r, execute (.divide a) s = .next { s with acc := r } ∧
        WrapsTo r (truncatedQuotient s.acc.toInt (s.mem.read a).toInt)) ∧
    (s.acc.toInt = wmin p.wordBits → (s.mem.read a).toInt = -1 →
      execute (.divide a) s = .next { s with acc := p.quotientOverflow }) ∧
    (s.mem.read a = 0 → execute (.divide a) s = .next { s with
      state := .faulted, fault := some (.divisionByZero a), result := some (.ran (.faulted (.divisionByZero a))) }) ∧
    execute (.branch a) s = .next { s with counter := (a : Int) - 1 } ∧
    execute (.branchneg a) s = .next (if s.acc.toInt < 0 then { s with counter := (a : Int) - 1 } else s) ∧
    execute (.branchzero a) s = .next (if s.acc.toInt = 0 then { s with counter := (a : Int) - 1 } else s) ∧
    execute (.halt a) s = .next { s with
      counter := Config.memSize, state := .halted, result := some (.ran .halted) }

/-- R6, R29, R31, R36, R37 at every width: the fresh engine meets the invariant, and every step of an engine that meets
it answers a next state that meets it (logs 6, 9 and 13). -/
def Obligations.EveryWidthKeepsEngineInvariant : Prop :=
  ∀ p : Config.Parameters, EngineInv (State.fresh p) ∧
    ∀ s : State p, EngineInv s → ∃ t, stepAt s = .next t ∧ EngineInv t

/-- R6, R144: the width and the overflowing quotient show only where a result is no Word. A step in which nothing wraps does
the same on an engine of at least that width that holds the same values, whatever the two give for `WMIN / -1`. The reserved
opcodes are the same in both, for they choose a name in the result of `Validate`. -/
def Obligations.WiderStepsAgreeUntilAWrap : Prop :=
  ∀ (p q : Config.Parameters) (s t : State p), p.wordBits ≤ q.wordBits →
    q.reservedOpcodes = p.reservedOpcodes → NextWithoutWrap s → stepAt s = .next t →
    stepAt (s.widen q) = .next (t.widen q)

/-- R6, R144: a run in which nothing wraps is the same run at every larger width, and with every overflowing quotient. -/
def Obligations.WiderRunsAgreeUntilAWrap : Prop :=
  ∀ (p q : Config.Parameters) (k : Nat) (s t : State p), p.wordBits ≤ q.wordBits →
    q.reservedOpcodes = p.reservedOpcodes →
    (∀ (j : Nat) (u : State p), j < k → Host.Core.run (engine p) j s = .next u → NextWithoutWrap u) →
    Host.Core.run (engine p) k s = .next t →
    Host.Core.run (engine q) k (s.widen q) = .next (t.widen q)

/-- R144, in every configuration (the fault's result by log 8): (a) a zero divisor faults for every dividend and leaves
`acc`; (b) `WMIN / -1` gives the Word of the configuration (log 3) with no fault; (c) every other quotient is exact, with no
wrap and no fault. -/
def Obligations.DivisionCornerCases : Prop :=
  ∀ (p : Config.Parameters) (s : State p) (a : Nat), a < Config.memSize →
    (s.mem.read a = 0 →
      execute (.divide a) s = .next (s.enterFaulted (.divisionByZero a)) ∧
        (s.enterFaulted (.divisionByZero a)).acc = s.acc) ∧
    (s.acc.toInt = wmin p.wordBits → (s.mem.read a).toInt = -1 →
      execute (.divide a) s = .next { s with acc := p.quotientOverflow }) ∧
    (s.mem.read a ≠ 0 → ¬(s.acc.toInt = wmin p.wordBits ∧ (s.mem.read a).toInt = -1) →
      ∃ r, execute (.divide a) s = .next { s with acc := r } ∧
        r.toInt = truncatedQuotient s.acc.toInt (s.mem.read a).toInt)
end

