-- ==== Sys2Proof/Laws/Alu.lean ====
section
/-! SUPPORT. The ALU's narrowing, and decode's divide by 100, at the level of integers. -/

namespace Sys2Proof.Machine.Alu

variable {n : Nat}

theorem toInt_wrap (n : Nat) (v : Int) : (wrap n v).toInt = v.bmod (2 ^ n) := BitVec.toInt_ofInt v

@[simp] theorem wrap_toInt {n : Nat} (b : BitVec n) : wrap n b.toInt = b := BitVec.ofInt_toInt

/-- The range of a Word (00_scope.md R8). -/
theorem toInt_bounds {n : Nat} (hn : 0 < n) (b : BitVec n) : wmin n ≤ b.toInt ∧ b.toInt ≤ wmax n := by
  obtain ⟨k, rfl⟩ : ∃ k, n = k + 1 := ⟨n - 1, by omega⟩
  have h1 := BitVec.le_toInt b
  have h2 := BitVec.toInt_lt (x := b)
  simp only [wmin, wmax, Nat.add_sub_cancel] at *
  omega

theorem two_pow_eq {n : Nat} (hn : 0 < n) : ((2 ^ n : Nat) : Int) = wmax n - wmin n + 1 := by
  obtain ⟨k, rfl⟩ : ∃ k, n = k + 1 := ⟨n - 1, by omega⟩
  simp only [wmin, wmax, Nat.add_sub_cancel]
  push_cast
  rw [pow_succ]
  omega

/-- `wrap(v) = v` when `v` is a Word (R9). -/
theorem toInt_wrap_of_range {n : Nat} (hn : 0 < n) {v : Int} (h1 : wmin n ≤ v) (h2 : v ≤ wmax n) :
    (wrap n v).toInt = v := by
  rw [toInt_wrap]
  obtain ⟨k, rfl⟩ : ∃ k, n = k + 1 := ⟨n - 1, by omega⟩
  simp only [wmin, wmax, Nat.add_sub_cancel] at h1 h2
  have e : ((2 ^ (k + 1) : Nat) : Int) = 2 * 2 ^ k := by push_cast; rw [pow_succ]; omega
  have e2 : (2 : Int) ^ k ≥ 1 := by exact_mod_cast Nat.one_le_two_pow
  apply Int.bmod_eq_of_le
  · rw [e]; omega
  · rw [e]; omega

/-- Truncating division by 100 splits a value into its two decimal fields, the lower with the value's sign (R10). -/
theorem split_by_100 (v : Int) :
    v = v.tdiv 100 * 100 + v.tmod 100 ∧ (0 ≤ v → 0 ≤ v.tmod 100 ∧ v.tmod 100 < 100) ∧
      (v ≤ 0 → -100 < v.tmod 100 ∧ v.tmod 100 ≤ 0) := by
  refine ⟨by have := Int.mul_tdiv_add_tmod v 100; omega, fun h => ?_, fun h => ?_⟩
  · exact ⟨Int.tmod_nonneg _ h, Int.tmod_lt_of_pos _ (by decide)⟩
  · have h1 := Int.tmod_nonneg 100 (a := -v) (by omega)
    have h2 := Int.tmod_lt_of_pos (-v) (b := 100) (by decide)
    rw [Int.neg_tmod] at h1 h2
    omega

/-- The fields of a value are the only pair that splits it so. -/
theorem fields_unique {v k a : Int} (h : v = k * 100 + a) (hp : 0 ≤ v → 0 ≤ a ∧ a < 100)
    (hn : v ≤ 0 → -100 < a ∧ a ≤ 0) : v.tdiv 100 = k ∧ v.tmod 100 = a := by
  obtain ⟨h1, h2, h3⟩ := split_by_100 v
  omega

/-- A value between 0 and a Word, on either side, is itself a Word. -/
theorem toInt_wrap_of_between (w : Word n) {v : Int} (hp : 0 ≤ w.toInt → 0 ≤ v ∧ v ≤ w.toInt)
    (hn : w.toInt ≤ 0 → w.toInt ≤ v ∧ v ≤ 0) : (wrap n v).toInt = v := by
  rcases Nat.eq_zero_or_pos n with rfl | h0
  · have := hp (by rw [BitVec.eq_nil w]; decide)
    have := hn (by rw [BitVec.eq_nil w]; decide)
    rw [show v = 0 by omega]
    decide
  · obtain ⟨h1, h2⟩ := toInt_bounds h0 w
    rcases le_total 0 w.toInt with h | h
    · have := hp h
      exact toInt_wrap_of_range h0 (by unfold wmin; have : (0 : Int) < 2 ^ (n - 1) := by positivity
                                       omega) (by omega)
    · have := hn h
      exact toInt_wrap_of_range h0 (by omega) (by unfold wmax; have : (0 : Int) < 2 ^ (n - 1) := by positivity
                                                  omega)

/-- `opCode = tdiv(w, 100)` (R83). -/
theorem div100_toInt (w : Word n) : (div100 w).toInt = w.toInt.tdiv 100 := by
  obtain ⟨h3, h4, h5⟩ := split_by_100 w.toInt
  exact toInt_wrap_of_between w (by simp only [Config.operandModulus]; omega) (by simp only [Config.operandModulus]; omega)

/-- `operand = tmod(w, 100)` (R83). -/
theorem mod100_toInt (w : Word n) : (mod100 w).toInt = w.toInt.tmod 100 := by
  obtain ⟨h3, h4, h5⟩ := split_by_100 w.toInt
  exact toInt_wrap_of_between w (by simp only [Config.operandModulus]; omega) (by simp only [Config.operandModulus]; omega)

/-- Every width of R6 holds the integers of 16 bits. -/
theorem toInt_wrap_of_small (hn : 16 ≤ n) {v : Int} (h1 : -32768 ≤ v) (h2 : v ≤ 32767) : (wrap n v).toInt = v := by
  have : (2 : Int) ^ 15 ≤ 2 ^ (n - 1) := pow_le_pow_right₀ (by decide) (by omega)
  exact toInt_wrap_of_range (by omega) (by unfold wmin; omega) (by unfold wmax; omega)

end Sys2Proof.Machine.Alu
end

