-- ==== Sys2Proof/Laws/Decode.lean ====
section
/-! SUPPORT. What the opcode table holds, and what a decoded Word says of its fields. -/

namespace Sys2Proof

variable {n : Nat}

@[simp] theorem Handler.operand_instr (h : Handler) (a : Nat) : (h.instr a).operand = a := by cases h <;> rfl

/-- The opcode of a handler's instruction does not depend on the operand. -/
theorem Handler.opcode_instr (h : Handler) (a b : Nat) : (h.instr a).opcode = (h.instr b).opcode := by
  cases h <;> rfl

/-- Every instruction is a handler's. -/
theorem Instr.exists_handler (i : Instr) : ∃ h : Handler, i = h.instr i.operand := by
  cases i
  · exact ⟨.read, rfl⟩
  · exact ⟨.write, rfl⟩
  · exact ⟨.load, rfl⟩
  · exact ⟨.store, rfl⟩
  · exact ⟨.add, rfl⟩
  · exact ⟨.subtract, rfl⟩
  · exact ⟨.divide, rfl⟩
  · exact ⟨.multiply, rfl⟩
  · exact ⟨.branch, rfl⟩
  · exact ⟨.branchneg, rfl⟩
  · exact ⟨.branchzero, rfl⟩
  · exact ⟨.halt, rfl⟩

/-- The table has the handler `h` at exactly its own opcode. -/
theorem callable_eq_some_iff (k : Int) (h : Handler) : callable k = some h ↔ (h.instr 0).opcode = k := by
  constructor
  · intro hk
    obtain ⟨r, hr, rfl⟩ := Option.map_eq_some_iff.1 hk
    have hm := List.mem_of_find?_eq_some hr
    have hc : r.code = k := by simpa using List.find?_some hr
    subst hc
    have : ∀ r ∈ opcodeTable, (r.handler.instr 0).opcode = r.code := by decide
    exact this r hm
  · rintro rfl
    cases h <;> rfl

theorem callable_opcode (i : Instr) : ∃ h : Handler, i = h.instr i.operand ∧ callable i.opcode = some h := by
  obtain ⟨h, hi⟩ := i.exists_handler
  refine ⟨h, hi, (callable_eq_some_iff _ _).2 ?_⟩
  rw [hi]
  exact h.opcode_instr _ _

/-- An opcode without a handler is one outside `IMPLEMENTED_OPCODES`. -/
theorem callable_eq_none_iff (k : Int) : callable k = none ↔ k ∉ Config.implementedOpcodes := by
  have : (opcodeTable.map Row.code) = Config.implementedOpcodes := by decide
  rw [callable, Option.map_eq_none_iff, List.find?_eq_none, ← this]
  simp

theorem opcode_mem (i : Instr) : i.opcode ∈ Config.implementedOpcodes := by
  cases i <;> simp [Instr.opcode, Config.implementedOpcodes]

/-- The lookup of an implemented opcode. -/
theorem lookup_of_callable {k : Int} {h : Handler} (hc : callable k = some h) (reserved : List Int) :
    lookup reserved k = .implemented h := by rw [lookup, hc]

/-- The lookup of every other opcode. -/
theorem lookup_of_none {k : Int} (hc : callable k = none) (reserved : List Int) :
    lookup reserved k = .uncallable (rejection reserved k) := by rw [lookup, hc]

/-- A Word either decodes to the instruction of its opcode's handler with its operand, or its opcode has no handler
and it is rejected under that opcode (R91). -/
theorem decodeWith_cases (reserved : List Int) (w : Word n) :
    (∃ h, callable (w.toInt.tdiv 100) = some h ∧
        decodeWith reserved w = .instr (h.instr (w.toInt.tmod 100).toNat)) ∨
      (w.toInt.tdiv 100 ∉ Config.implementedOpcodes ∧
        decodeWith reserved w = .rejected (rejection reserved (w.toInt.tdiv 100)) (w.toInt.tdiv 100)) := by
  rw [decodeWith, Machine.Alu.div100_toInt, Machine.Alu.mod100_toInt]
  cases hc : callable (w.toInt.tdiv 100) with
  | some h => exact .inl ⟨h, rfl, by rw [lookup_of_callable hc]; rfl⟩
  | none => exact .inr ⟨(callable_eq_none_iff _).1 hc, by rw [lookup_of_none hc]; rfl⟩

/-- What it takes for a Word to decode to an instruction. -/
theorem decodeWith_eq_instr {reserved : List Int} {w : Word n} {i : Instr} (h : decodeWith reserved w = .instr i) :
    i.opcode = w.toInt.tdiv 100 ∧ i.operand = (w.toInt.tmod 100).toNat := by
  rcases decodeWith_cases reserved w with ⟨g, hc, e⟩ | ⟨-, e⟩
  · obtain rfl : g.instr (w.toInt.tmod 100).toNat = i := by simpa [e] using h
    refine ⟨?_, g.operand_instr _⟩
    rw [g.opcode_instr _ 0]
    exact (callable_eq_some_iff _ _).1 hc
  · simp [e] at h

/-- A rejected Word has an opcode without a handler. -/
theorem not_mem_of_rejected {reserved : List Int} {w : Word n} {r : Rejection} {k : Int}
    (h : decodeWith reserved w = .rejected r k) :
    k = w.toInt.tdiv 100 ∧ k ∉ Config.implementedOpcodes := by
  rcases decodeWith_cases reserved w with ⟨g, -, e⟩ | ⟨hk, e⟩
  · simp [e] at h
  · obtain ⟨-, rfl⟩ : _ ∧ w.toInt.tdiv 100 = k := by simpa [e] using h
    exact ⟨rfl, hk⟩

/-- The integer value of the Word of two two-digit fields, at every width of R6. -/
theorem encodeFields_toInt (hn : 16 ≤ n) {k a : Int} (h1 : 0 ≤ k) (h2 : k ≤ 99) (h3 : 0 ≤ a) (h4 : a ≤ 99) :
    (encodeFields k a n).toInt = k * 100 + a :=
  Machine.Alu.toInt_wrap_of_small hn (by simp only [Config.operandModulus]; omega)
    (by simp only [Config.operandModulus]; omega)

/-- The machine's decoder is the decoder of its configuration. -/
theorem decodeWith_hardware (w : Word n) : decodeWith Config.hardware.reservedOpcodes w = decode w := rfl

end Sys2Proof
end

