-- ==== Sys2Proof/Laws/Memory.lean ====
section
/-! SUPPORT. The laws of memory: read after write, that every operation keeps the canonical form, what a load leaves,
and that two canonical memories that read alike are the same list. -/

namespace Sys2Proof.Machine

variable {n : Nat}

@[simp] theorem Memory.read_nil (a : Nat) : Memory.read (n := n) [] a = 0 := rfl

theorem Memory.read_cell (k : Nat) (x : Word n) (m : Memory n) (a : Nat) :
    Memory.read ((k, x) :: m) a = if k = a then x else Memory.read m a := rfl

theorem Memory.wf_nil : Memory.wf (n := n) [] := by simp [Memory.wf]

/-- A canonical memory is its first cell and a canonical rest whose addresses are all higher. -/
theorem Memory.wf_cell_iff (k : Nat) (x : Word n) (m : Memory n) :
    Memory.wf ((k, x) :: m) ↔
      k < Config.memSize ∧ x ≠ 0 ∧ (∀ c ∈ m, k < c.1) ∧ Memory.wf m := by
  constructor
  · rintro ⟨hp, hc⟩
    obtain ⟨hk, hp⟩ := List.pairwise_cons.1 hp
    obtain ⟨h1, h2⟩ := hc _ (List.mem_cons_self ..)
    exact ⟨h1, h2, hk, hp, fun c h => hc c (List.mem_cons_of_mem _ h)⟩
  · rintro ⟨h1, h2, hk, hp, hc⟩
    refine ⟨List.pairwise_cons.2 ⟨hk, hp⟩, fun c h => ?_⟩
    rcases List.mem_cons.1 h with rfl | h
    · exact ⟨h1, h2⟩
    · exact hc c h

/-- Below every listed address, memory reads as unlisted. -/
theorem Memory.read_below {m : Memory n} {a : Nat} (h : ∀ c ∈ m, a < c.1) : m.read a = 0 := by
  induction m with
  | nil => rfl
  | cons c m ih =>
    obtain ⟨k, x⟩ := c
    have hk : a < k := h (k, x) (List.mem_cons_self ..)
    rw [Memory.read_cell, if_neg (by omega)]
    exact ih fun c hc => h c (List.mem_cons_of_mem _ hc)

/-- Outside the address space, a canonical memory reads as unlisted. -/
theorem Memory.read_outside {m : Memory n} (hm : m.wf) {a : Nat} (ha : Config.memSize ≤ a) : m.read a = 0 := by
  induction m with
  | nil => rfl
  | cons c m ih =>
    obtain ⟨k, x⟩ := c
    obtain ⟨hk, -, -, hm⟩ := (Memory.wf_cell_iff k x m).1 hm
    rw [Memory.read_cell, if_neg (by omega)]
    exact ih hm

theorem Memory.mem_cons_of {a : Nat} {v : Word n} {m : Memory n} {c : Nat × Word n}
    (h : c ∈ Memory.cons a v m) : c = (a, v) ∨ c ∈ m := by
  unfold Memory.cons at h
  split at h
  · exact .inr h
  · exact List.mem_cons.1 h

theorem Memory.read_cons (a : Nat) (v : Word n) {m : Memory n} (h : ∀ c ∈ m, a < c.1) (b : Nat) :
    (Memory.cons a v m).read b = if a = b then v else m.read b := by
  unfold Memory.cons
  split
  next hv =>
    split
    next hab => subst hab; rw [Memory.read_below h, hv]; rfl
    next => rfl
  next => rfl

theorem Memory.wf_cons {a : Nat} {v : Word n} {m : Memory n} (ha : a < Config.memSize)
    (h : ∀ c ∈ m, a < c.1) (hm : m.wf) : (Memory.cons a v m).wf := by
  unfold Memory.cons
  split
  · exact hm
  next hv => exact (Memory.wf_cell_iff a v m).2 ⟨ha, hv, h, hm⟩

theorem Memory.mem_write_of {m : Memory n} {a : Nat} {v : Word n} {c : Nat × Word n}
    (h : c ∈ m.write a v) : c.1 = a ∨ c ∈ m := by
  induction m with
  | nil =>
    rcases Memory.mem_cons_of h with rfl | h
    · exact .inl rfl
    · exact .inr h
  | cons d m ih =>
    obtain ⟨k, x⟩ := d
    unfold Memory.write at h
    split at h
    · rcases Memory.mem_cons_of h with rfl | h
      · exact .inl rfl
      · exact .inr h
    · split at h
      · rcases Memory.mem_cons_of h with rfl | h
        · exact .inl rfl
        · exact .inr (List.mem_cons_of_mem _ h)
      · rcases List.mem_cons.1 h with rfl | h
        · exact .inr (List.mem_cons_self ..)
        · exact (ih h).imp_right (List.mem_cons_of_mem _)

/-- A write keeps the canonical form. -/
theorem Memory.wf_write {m : Memory n} (hm : m.wf) {a : Nat} (ha : a < Config.memSize) (v : Word n) :
    (m.write a v).wf := by
  induction m with
  | nil => exact Memory.wf_cons ha (by simp) Memory.wf_nil
  | cons d m ih =>
    obtain ⟨k, x⟩ := d
    obtain ⟨hk, hx, hlt, hm'⟩ := (Memory.wf_cell_iff k x m).1 hm
    unfold Memory.write
    split
    next h =>
      refine Memory.wf_cons ha (fun c hc => ?_) hm
      rcases List.mem_cons.1 hc with rfl | hc
      · exact h
      · exact Nat.lt_trans h (hlt c hc)
    next h =>
      split
      next h' => exact Memory.wf_cons ha (fun c hc => h' ▸ hlt c hc) hm'
      next h' =>
        refine (Memory.wf_cell_iff k x _).2 ⟨hk, hx, fun c hc => ?_, ih hm'⟩
        rcases Memory.mem_write_of hc with hc | hc
        · omega
        · exact hlt c hc

/-- Read after write, at every address. -/
theorem Memory.read_write {m : Memory n} (hm : m.wf) (a : Nat) (v : Word n) (b : Nat) :
    (m.write a v).read b = if a = b then v else m.read b := by
  induction m with
  | nil => exact Memory.read_cons a v (by simp) b
  | cons d m ih =>
    obtain ⟨k, x⟩ := d
    obtain ⟨hk, hx, hlt, hm'⟩ := (Memory.wf_cell_iff k x m).1 hm
    unfold Memory.write
    split
    next h =>
      refine Memory.read_cons a v (fun c hc => ?_) b
      rcases List.mem_cons.1 hc with rfl | hc
      · exact h
      · exact Nat.lt_trans h (hlt c hc)
    next h =>
      split
      next h' =>
        rw [Memory.read_cons a v (fun c hc => h' ▸ hlt c hc) b, Memory.read_cell]
        split <;> simp_all
      next h' =>
        rw [Memory.read_cell, Memory.read_cell, ih hm']
        split
        next hkb => rw [if_neg (by omega)]
        next => rfl

theorem Memory.read_write_same {m : Memory n} (hm : m.wf) (a : Nat) (v : Word n) : (m.write a v).read a = v := by
  rw [Memory.read_write hm, if_pos rfl]

theorem Memory.read_write_other {m : Memory n} (hm : m.wf) {a b : Nat} (v : Word n) (h : b ≠ a) :
    (m.write a v).read b = m.read b := by
  rw [Memory.read_write hm, if_neg (fun e => h e.symm)]

/-- Canonical memories that read alike are equal. -/
theorem Memory.eq_of_read_eq {m m' : Memory n} (hm : m.wf) (hm' : m'.wf)
    (h : ∀ a, m.read a = m'.read a) : m = m' := by
  induction m generalizing m' with
  | nil =>
    cases m' with
    | nil => rfl
    | cons d m' =>
      obtain ⟨k, x⟩ := d
      obtain ⟨-, hx, -, -⟩ := (Memory.wf_cell_iff k x m').1 hm'
      have := h k
      rw [Memory.read_cell, if_pos rfl] at this
      exact absurd this.symm hx
  | cons c m ih =>
    obtain ⟨k, x⟩ := c
    obtain ⟨-, hx, hlt, hwf⟩ := (Memory.wf_cell_iff k x m).1 hm
    cases m' with
    | nil =>
      have := h k
      rw [Memory.read_cell, if_pos rfl] at this
      exact absurd this hx
    | cons d m' =>
      obtain ⟨k', x'⟩ := d
      obtain ⟨-, hx', hlt', hwf'⟩ := (Memory.wf_cell_iff k' x' m').1 hm'
      have hk : k = k' := by
        rcases Nat.lt_trichotomy k k' with hlt1 | rfl | hlt1
        · have := h k
          rw [Memory.read_cell, if_pos rfl, Memory.read_cell, if_neg (by omega),
            Memory.read_below fun c hc => Nat.lt_trans hlt1 (hlt' c hc)] at this
          exact absurd this hx
        · rfl
        · have := h k'
          rw [Memory.read_cell, if_neg (by omega), Memory.read_cell, if_pos rfl,
            Memory.read_below fun c hc => Nat.lt_trans hlt1 (hlt c hc)] at this
          exact absurd this.symm hx'
      subst hk
      have hxx : x = x' := by
        have := h k
        rwa [Memory.read_cell, if_pos rfl, Memory.read_cell, if_pos rfl] at this
      subst hxx
      rw [ih hwf hwf' fun a => ?_]
      have := h a
      rw [Memory.read_cell, Memory.read_cell] at this
      by_cases hka : k = a
      · subst hka
        rw [Memory.read_below hlt, Memory.read_below hlt']
      · rwa [if_neg hka, if_neg hka] at this

/-- A load of a program that fits keeps the canonical form. -/
theorem Memory.wf_load {m : Memory n} (hm : m.wf) (p : List (Word n)) {base : Nat}
    (h : base + p.length ≤ Config.memSize) : (m.load base p).wf := by
  induction p generalizing m base with
  | nil => exact hm
  | cons w p ih =>
    rw [List.length_cons] at h
    exact ih (Memory.wf_write hm (by omega) w) (by omega)

/-- What a load leaves at each address: the program's Words in place, every other Word as it was. -/
theorem Memory.read_load {m : Memory n} (hm : m.wf) (p : List (Word n)) {base : Nat}
    (h : base + p.length ≤ Config.memSize) (a : Nat) :
    (m.load base p).read a =
      if h : base ≤ a ∧ a < base + p.length then p[a - base]'(by omega) else m.read a := by
  induction p generalizing m base with
  | nil => simp [Memory.load]
  | cons w p ih =>
    rw [List.length_cons] at h
    rw [Memory.load, ih (Memory.wf_write hm (by omega) w) (by omega)]
    by_cases ha : base = a
    · subst ha
      rw [dif_neg (by omega), dif_pos (by simp), Memory.read_write_same hm]
      simp
    · by_cases hin : base + 1 ≤ a ∧ a < base + 1 + p.length
      · rw [dif_pos hin, dif_pos (by simp; omega)]
        have e : a - base = (a - (base + 1)) + 1 := by omega
        simp [e]
      · rw [dif_neg hin, dif_neg (by simp; omega), Memory.read_write_other hm w (fun e => ha e.symm)]

end Sys2Proof.Machine
end

