-- ==== Sys2Proof/Laws/State.lean ====
section
/-! SUPPORT. One lemma per field and update of State: what each update writes, and that it writes nothing else. -/

namespace Sys2Proof.Machine

variable {cfg : Config.Parameters}


@[simp] theorem State.setAcc_acc (s : State cfg) (v : Word cfg.wordBits) : (s.setAcc v).acc = v := rfl
@[simp] theorem State.setAcc_counter (s : State cfg) (v : Word cfg.wordBits) : (s.setAcc v).counter = s.counter := rfl
@[simp] theorem State.setAcc_instruction (s : State cfg) (v : Word cfg.wordBits) : (s.setAcc v).instruction = s.instruction := rfl
@[simp] theorem State.setAcc_opCode (s : State cfg) (v : Word cfg.wordBits) : (s.setAcc v).opCode = s.opCode := rfl
@[simp] theorem State.setAcc_operand (s : State cfg) (v : Word cfg.wordBits) : (s.setAcc v).operand = s.operand := rfl
@[simp] theorem State.setAcc_state (s : State cfg) (v : Word cfg.wordBits) : (s.setAcc v).state = s.state := rfl
@[simp] theorem State.setAcc_fault (s : State cfg) (v : Word cfg.wordBits) : (s.setAcc v).fault = s.fault := rfl
@[simp] theorem State.setAcc_mem (s : State cfg) (v : Word cfg.wordBits) : (s.setAcc v).mem = s.mem := rfl
@[simp] theorem State.setAcc_inHist (s : State cfg) (v : Word cfg.wordBits) : (s.setAcc v).inHist = s.inHist := rfl
@[simp] theorem State.setAcc_outHist (s : State cfg) (v : Word cfg.wordBits) : (s.setAcc v).outHist = s.outHist := rfl
@[simp] theorem State.setAcc_input (s : State cfg) (v : Word cfg.wordBits) : (s.setAcc v).input = s.input := rfl
@[simp] theorem State.setAcc_commands (s : State cfg) (v : Word cfg.wordBits) : (s.setAcc v).commands = s.commands := rfl
@[simp] theorem State.setAcc_result (s : State cfg) (v : Word cfg.wordBits) : (s.setAcc v).result = s.result := rfl

@[simp] theorem State.setCounter_acc (s : State cfg) (c : Int) : (s.setCounter c).acc = s.acc := rfl
@[simp] theorem State.setCounter_counter (s : State cfg) (c : Int) : (s.setCounter c).counter = c := rfl
@[simp] theorem State.setCounter_instruction (s : State cfg) (c : Int) : (s.setCounter c).instruction = s.instruction := rfl
@[simp] theorem State.setCounter_opCode (s : State cfg) (c : Int) : (s.setCounter c).opCode = s.opCode := rfl
@[simp] theorem State.setCounter_operand (s : State cfg) (c : Int) : (s.setCounter c).operand = s.operand := rfl
@[simp] theorem State.setCounter_state (s : State cfg) (c : Int) : (s.setCounter c).state = s.state := rfl
@[simp] theorem State.setCounter_fault (s : State cfg) (c : Int) : (s.setCounter c).fault = s.fault := rfl
@[simp] theorem State.setCounter_mem (s : State cfg) (c : Int) : (s.setCounter c).mem = s.mem := rfl
@[simp] theorem State.setCounter_inHist (s : State cfg) (c : Int) : (s.setCounter c).inHist = s.inHist := rfl
@[simp] theorem State.setCounter_outHist (s : State cfg) (c : Int) : (s.setCounter c).outHist = s.outHist := rfl
@[simp] theorem State.setCounter_input (s : State cfg) (c : Int) : (s.setCounter c).input = s.input := rfl
@[simp] theorem State.setCounter_commands (s : State cfg) (c : Int) : (s.setCounter c).commands = s.commands := rfl
@[simp] theorem State.setCounter_result (s : State cfg) (c : Int) : (s.setCounter c).result = s.result := rfl

@[simp] theorem State.setMem_acc (s : State cfg) (m : Memory cfg.wordBits) : (s.setMem m).acc = s.acc := rfl
@[simp] theorem State.setMem_counter (s : State cfg) (m : Memory cfg.wordBits) : (s.setMem m).counter = s.counter := rfl
@[simp] theorem State.setMem_instruction (s : State cfg) (m : Memory cfg.wordBits) : (s.setMem m).instruction = s.instruction := rfl
@[simp] theorem State.setMem_opCode (s : State cfg) (m : Memory cfg.wordBits) : (s.setMem m).opCode = s.opCode := rfl
@[simp] theorem State.setMem_operand (s : State cfg) (m : Memory cfg.wordBits) : (s.setMem m).operand = s.operand := rfl
@[simp] theorem State.setMem_state (s : State cfg) (m : Memory cfg.wordBits) : (s.setMem m).state = s.state := rfl
@[simp] theorem State.setMem_fault (s : State cfg) (m : Memory cfg.wordBits) : (s.setMem m).fault = s.fault := rfl
@[simp] theorem State.setMem_mem (s : State cfg) (m : Memory cfg.wordBits) : (s.setMem m).mem = m := rfl
@[simp] theorem State.setMem_inHist (s : State cfg) (m : Memory cfg.wordBits) : (s.setMem m).inHist = s.inHist := rfl
@[simp] theorem State.setMem_outHist (s : State cfg) (m : Memory cfg.wordBits) : (s.setMem m).outHist = s.outHist := rfl
@[simp] theorem State.setMem_input (s : State cfg) (m : Memory cfg.wordBits) : (s.setMem m).input = s.input := rfl
@[simp] theorem State.setMem_commands (s : State cfg) (m : Memory cfg.wordBits) : (s.setMem m).commands = s.commands := rfl
@[simp] theorem State.setMem_result (s : State cfg) (m : Memory cfg.wordBits) : (s.setMem m).result = s.result := rfl

@[simp] theorem State.receive_acc (s : State cfg) (v : Word cfg.wordBits) (rest : List (Word cfg.wordBits)) : (s.receive v rest).acc = s.acc := rfl
@[simp] theorem State.receive_counter (s : State cfg) (v : Word cfg.wordBits) (rest : List (Word cfg.wordBits)) : (s.receive v rest).counter = s.counter := rfl
@[simp] theorem State.receive_instruction (s : State cfg) (v : Word cfg.wordBits) (rest : List (Word cfg.wordBits)) : (s.receive v rest).instruction = s.instruction := rfl
@[simp] theorem State.receive_opCode (s : State cfg) (v : Word cfg.wordBits) (rest : List (Word cfg.wordBits)) : (s.receive v rest).opCode = s.opCode := rfl
@[simp] theorem State.receive_operand (s : State cfg) (v : Word cfg.wordBits) (rest : List (Word cfg.wordBits)) : (s.receive v rest).operand = s.operand := rfl
@[simp] theorem State.receive_state (s : State cfg) (v : Word cfg.wordBits) (rest : List (Word cfg.wordBits)) : (s.receive v rest).state = s.state := rfl
@[simp] theorem State.receive_fault (s : State cfg) (v : Word cfg.wordBits) (rest : List (Word cfg.wordBits)) : (s.receive v rest).fault = s.fault := rfl
@[simp] theorem State.receive_mem (s : State cfg) (v : Word cfg.wordBits) (rest : List (Word cfg.wordBits)) : (s.receive v rest).mem = s.mem := rfl
@[simp] theorem State.receive_inHist (s : State cfg) (v : Word cfg.wordBits) (rest : List (Word cfg.wordBits)) : (s.receive v rest).inHist = s.inHist ++ [v] := rfl
@[simp] theorem State.receive_outHist (s : State cfg) (v : Word cfg.wordBits) (rest : List (Word cfg.wordBits)) : (s.receive v rest).outHist = s.outHist := rfl
@[simp] theorem State.receive_input (s : State cfg) (v : Word cfg.wordBits) (rest : List (Word cfg.wordBits)) : (s.receive v rest).input = rest := rfl
@[simp] theorem State.receive_commands (s : State cfg) (v : Word cfg.wordBits) (rest : List (Word cfg.wordBits)) : (s.receive v rest).commands = s.commands := rfl
@[simp] theorem State.receive_result (s : State cfg) (v : Word cfg.wordBits) (rest : List (Word cfg.wordBits)) : (s.receive v rest).result = s.result := rfl

@[simp] theorem State.emit_acc (s : State cfg) (v : Word cfg.wordBits) : (s.emit v).acc = s.acc := rfl
@[simp] theorem State.emit_counter (s : State cfg) (v : Word cfg.wordBits) : (s.emit v).counter = s.counter := rfl
@[simp] theorem State.emit_instruction (s : State cfg) (v : Word cfg.wordBits) : (s.emit v).instruction = s.instruction := rfl
@[simp] theorem State.emit_opCode (s : State cfg) (v : Word cfg.wordBits) : (s.emit v).opCode = s.opCode := rfl
@[simp] theorem State.emit_operand (s : State cfg) (v : Word cfg.wordBits) : (s.emit v).operand = s.operand := rfl
@[simp] theorem State.emit_state (s : State cfg) (v : Word cfg.wordBits) : (s.emit v).state = s.state := rfl
@[simp] theorem State.emit_fault (s : State cfg) (v : Word cfg.wordBits) : (s.emit v).fault = s.fault := rfl
@[simp] theorem State.emit_mem (s : State cfg) (v : Word cfg.wordBits) : (s.emit v).mem = s.mem := rfl
@[simp] theorem State.emit_inHist (s : State cfg) (v : Word cfg.wordBits) : (s.emit v).inHist = s.inHist := rfl
@[simp] theorem State.emit_outHist (s : State cfg) (v : Word cfg.wordBits) : (s.emit v).outHist = s.outHist ++ [v] := rfl
@[simp] theorem State.emit_input (s : State cfg) (v : Word cfg.wordBits) : (s.emit v).input = s.input := rfl
@[simp] theorem State.emit_commands (s : State cfg) (v : Word cfg.wordBits) : (s.emit v).commands = s.commands := rfl
@[simp] theorem State.emit_result (s : State cfg) (v : Word cfg.wordBits) : (s.emit v).result = s.result := rfl

@[simp] theorem State.latch_acc (s : State cfg) (c : Int) (w : Word cfg.wordBits) : (s.latch c w).acc = s.acc := rfl
@[simp] theorem State.latch_counter (s : State cfg) (c : Int) (w : Word cfg.wordBits) : (s.latch c w).counter = c := rfl
@[simp] theorem State.latch_instruction (s : State cfg) (c : Int) (w : Word cfg.wordBits) : (s.latch c w).instruction = w := rfl
@[simp] theorem State.latch_opCode (s : State cfg) (c : Int) (w : Word cfg.wordBits) : (s.latch c w).opCode = Alu.div100 w := rfl
@[simp] theorem State.latch_operand (s : State cfg) (c : Int) (w : Word cfg.wordBits) : (s.latch c w).operand = Alu.mod100 w := rfl
@[simp] theorem State.latch_state (s : State cfg) (c : Int) (w : Word cfg.wordBits) : (s.latch c w).state = s.state := rfl
@[simp] theorem State.latch_fault (s : State cfg) (c : Int) (w : Word cfg.wordBits) : (s.latch c w).fault = s.fault := rfl
@[simp] theorem State.latch_mem (s : State cfg) (c : Int) (w : Word cfg.wordBits) : (s.latch c w).mem = s.mem := rfl
@[simp] theorem State.latch_inHist (s : State cfg) (c : Int) (w : Word cfg.wordBits) : (s.latch c w).inHist = s.inHist := rfl
@[simp] theorem State.latch_outHist (s : State cfg) (c : Int) (w : Word cfg.wordBits) : (s.latch c w).outHist = s.outHist := rfl
@[simp] theorem State.latch_input (s : State cfg) (c : Int) (w : Word cfg.wordBits) : (s.latch c w).input = s.input := rfl
@[simp] theorem State.latch_commands (s : State cfg) (c : Int) (w : Word cfg.wordBits) : (s.latch c w).commands = s.commands := rfl
@[simp] theorem State.latch_result (s : State cfg) (c : Int) (w : Word cfg.wordBits) : (s.latch c w).result = s.result := rfl

@[simp] theorem State.enterHalted_acc (s : State cfg) : (s.enterHalted).acc = s.acc := rfl
@[simp] theorem State.enterHalted_counter (s : State cfg) : (s.enterHalted).counter = s.counter := rfl
@[simp] theorem State.enterHalted_instruction (s : State cfg) : (s.enterHalted).instruction = s.instruction := rfl
@[simp] theorem State.enterHalted_opCode (s : State cfg) : (s.enterHalted).opCode = s.opCode := rfl
@[simp] theorem State.enterHalted_operand (s : State cfg) : (s.enterHalted).operand = s.operand := rfl
@[simp] theorem State.enterHalted_state (s : State cfg) : (s.enterHalted).state = .halted := rfl
@[simp] theorem State.enterHalted_fault (s : State cfg) : (s.enterHalted).fault = s.fault := rfl
@[simp] theorem State.enterHalted_mem (s : State cfg) : (s.enterHalted).mem = s.mem := rfl
@[simp] theorem State.enterHalted_inHist (s : State cfg) : (s.enterHalted).inHist = s.inHist := rfl
@[simp] theorem State.enterHalted_outHist (s : State cfg) : (s.enterHalted).outHist = s.outHist := rfl
@[simp] theorem State.enterHalted_input (s : State cfg) : (s.enterHalted).input = s.input := rfl
@[simp] theorem State.enterHalted_commands (s : State cfg) : (s.enterHalted).commands = s.commands := rfl
@[simp] theorem State.enterHalted_result (s : State cfg) : (s.enterHalted).result = some (.ran .halted) := rfl

@[simp] theorem State.enterFaulted_acc (s : State cfg) (f : RuntimeFault) : (s.enterFaulted f).acc = s.acc := rfl
@[simp] theorem State.enterFaulted_counter (s : State cfg) (f : RuntimeFault) : (s.enterFaulted f).counter = s.counter := rfl
@[simp] theorem State.enterFaulted_instruction (s : State cfg) (f : RuntimeFault) : (s.enterFaulted f).instruction = s.instruction := rfl
@[simp] theorem State.enterFaulted_opCode (s : State cfg) (f : RuntimeFault) : (s.enterFaulted f).opCode = s.opCode := rfl
@[simp] theorem State.enterFaulted_operand (s : State cfg) (f : RuntimeFault) : (s.enterFaulted f).operand = s.operand := rfl
@[simp] theorem State.enterFaulted_state (s : State cfg) (f : RuntimeFault) : (s.enterFaulted f).state = .faulted := rfl
@[simp] theorem State.enterFaulted_fault (s : State cfg) (f : RuntimeFault) : (s.enterFaulted f).fault = some f := rfl
@[simp] theorem State.enterFaulted_mem (s : State cfg) (f : RuntimeFault) : (s.enterFaulted f).mem = s.mem := rfl
@[simp] theorem State.enterFaulted_inHist (s : State cfg) (f : RuntimeFault) : (s.enterFaulted f).inHist = s.inHist := rfl
@[simp] theorem State.enterFaulted_outHist (s : State cfg) (f : RuntimeFault) : (s.enterFaulted f).outHist = s.outHist := rfl
@[simp] theorem State.enterFaulted_input (s : State cfg) (f : RuntimeFault) : (s.enterFaulted f).input = s.input := rfl
@[simp] theorem State.enterFaulted_commands (s : State cfg) (f : RuntimeFault) : (s.enterFaulted f).commands = s.commands := rfl
@[simp] theorem State.enterFaulted_result (s : State cfg) (f : RuntimeFault) : (s.enterFaulted f).result = some (.ran (.faulted f)) := rfl

@[simp] theorem State.giveBack_acc (s : State cfg) (r : CommandResult) : (s.giveBack r).acc = s.acc := rfl
@[simp] theorem State.giveBack_counter (s : State cfg) (r : CommandResult) : (s.giveBack r).counter = s.counter := rfl
@[simp] theorem State.giveBack_instruction (s : State cfg) (r : CommandResult) : (s.giveBack r).instruction = s.instruction := rfl
@[simp] theorem State.giveBack_opCode (s : State cfg) (r : CommandResult) : (s.giveBack r).opCode = s.opCode := rfl
@[simp] theorem State.giveBack_operand (s : State cfg) (r : CommandResult) : (s.giveBack r).operand = s.operand := rfl
@[simp] theorem State.giveBack_state (s : State cfg) (r : CommandResult) : (s.giveBack r).state = s.state := rfl
@[simp] theorem State.giveBack_fault (s : State cfg) (r : CommandResult) : (s.giveBack r).fault = s.fault := rfl
@[simp] theorem State.giveBack_mem (s : State cfg) (r : CommandResult) : (s.giveBack r).mem = s.mem := rfl
@[simp] theorem State.giveBack_inHist (s : State cfg) (r : CommandResult) : (s.giveBack r).inHist = s.inHist := rfl
@[simp] theorem State.giveBack_outHist (s : State cfg) (r : CommandResult) : (s.giveBack r).outHist = s.outHist := rfl
@[simp] theorem State.giveBack_input (s : State cfg) (r : CommandResult) : (s.giveBack r).input = s.input := rfl
@[simp] theorem State.giveBack_commands (s : State cfg) (r : CommandResult) : (s.giveBack r).commands = s.commands := rfl
@[simp] theorem State.giveBack_result (s : State cfg) (r : CommandResult) : (s.giveBack r).result = some r := rfl

@[simp] theorem State.issue_acc (s : State cfg) (c : Command cfg.wordBits) : (s.issue c).acc = s.acc := rfl
@[simp] theorem State.issue_counter (s : State cfg) (c : Command cfg.wordBits) : (s.issue c).counter = s.counter := rfl
@[simp] theorem State.issue_instruction (s : State cfg) (c : Command cfg.wordBits) : (s.issue c).instruction = s.instruction := rfl
@[simp] theorem State.issue_opCode (s : State cfg) (c : Command cfg.wordBits) : (s.issue c).opCode = s.opCode := rfl
@[simp] theorem State.issue_operand (s : State cfg) (c : Command cfg.wordBits) : (s.issue c).operand = s.operand := rfl
@[simp] theorem State.issue_state (s : State cfg) (c : Command cfg.wordBits) : (s.issue c).state = s.state := rfl
@[simp] theorem State.issue_fault (s : State cfg) (c : Command cfg.wordBits) : (s.issue c).fault = s.fault := rfl
@[simp] theorem State.issue_mem (s : State cfg) (c : Command cfg.wordBits) : (s.issue c).mem = s.mem := rfl
@[simp] theorem State.issue_inHist (s : State cfg) (c : Command cfg.wordBits) : (s.issue c).inHist = s.inHist := rfl
@[simp] theorem State.issue_outHist (s : State cfg) (c : Command cfg.wordBits) : (s.issue c).outHist = s.outHist := rfl
@[simp] theorem State.issue_input (s : State cfg) (c : Command cfg.wordBits) : (s.issue c).input = s.input := rfl
@[simp] theorem State.issue_commands (s : State cfg) (c : Command cfg.wordBits) : (s.issue c).commands = s.commands ++ [c] := rfl
@[simp] theorem State.issue_result (s : State cfg) (c : Command cfg.wordBits) : (s.issue c).result = s.result := rfl

@[simp] theorem State.deliver_acc (s : State cfg) (v : Word cfg.wordBits) : (s.deliver v).acc = s.acc := rfl
@[simp] theorem State.deliver_counter (s : State cfg) (v : Word cfg.wordBits) : (s.deliver v).counter = s.counter := rfl
@[simp] theorem State.deliver_instruction (s : State cfg) (v : Word cfg.wordBits) : (s.deliver v).instruction = s.instruction := rfl
@[simp] theorem State.deliver_opCode (s : State cfg) (v : Word cfg.wordBits) : (s.deliver v).opCode = s.opCode := rfl
@[simp] theorem State.deliver_operand (s : State cfg) (v : Word cfg.wordBits) : (s.deliver v).operand = s.operand := rfl
@[simp] theorem State.deliver_state (s : State cfg) (v : Word cfg.wordBits) : (s.deliver v).state = s.state := rfl
@[simp] theorem State.deliver_fault (s : State cfg) (v : Word cfg.wordBits) : (s.deliver v).fault = s.fault := rfl
@[simp] theorem State.deliver_mem (s : State cfg) (v : Word cfg.wordBits) : (s.deliver v).mem = s.mem := rfl
@[simp] theorem State.deliver_inHist (s : State cfg) (v : Word cfg.wordBits) : (s.deliver v).inHist = s.inHist := rfl
@[simp] theorem State.deliver_outHist (s : State cfg) (v : Word cfg.wordBits) : (s.deliver v).outHist = s.outHist := rfl
@[simp] theorem State.deliver_input (s : State cfg) (v : Word cfg.wordBits) : (s.deliver v).input = s.input ++ [v] := rfl
@[simp] theorem State.deliver_commands (s : State cfg) (v : Word cfg.wordBits) : (s.deliver v).commands = s.commands := rfl
@[simp] theorem State.deliver_result (s : State cfg) (v : Word cfg.wordBits) : (s.deliver v).result = s.result := rfl

@[simp] theorem State.reset_eq_fresh : State.reset = State.fresh := rfl
@[simp] theorem State.fresh_acc : (State.fresh cfg).acc = 0 := rfl
@[simp] theorem State.fresh_counter : (State.fresh cfg).counter = -1 := rfl
@[simp] theorem State.fresh_instruction : (State.fresh cfg).instruction = 0 := rfl
@[simp] theorem State.fresh_opCode : (State.fresh cfg).opCode = 0 := rfl
@[simp] theorem State.fresh_operand : (State.fresh cfg).operand = 0 := rfl
@[simp] theorem State.fresh_state : (State.fresh cfg).state = .ready := rfl
@[simp] theorem State.fresh_fault : (State.fresh cfg).fault = none := rfl
@[simp] theorem State.fresh_mem : (State.fresh cfg).mem = [] := rfl
@[simp] theorem State.fresh_inHist : (State.fresh cfg).inHist = [] := rfl
@[simp] theorem State.fresh_outHist : (State.fresh cfg).outHist = [] := rfl
@[simp] theorem State.fresh_input : (State.fresh cfg).input = [] := rfl
@[simp] theorem State.fresh_commands : (State.fresh cfg).commands = [] := rfl
@[simp] theorem State.fresh_result : (State.fresh cfg).result = none := rfl

end Sys2Proof.Machine
end

