-- ==== Sys2Proof/Laws/Ops.lean ====
section
/-! SUPPORT. What each shared operation can do: the arbiter's two answers, and the two ways a handler goes on. -/

namespace Sys2Proof.Machine

variable {n : Nat} {cfg : Config.Parameters}

theorem inBounds_iff (a : Int) : inBounds a = true ↔ 0 ≤ a ∧ a < Config.memSize := by simp [inBounds]

theorem inBounds_natCast {a : Nat} (h : a < Config.memSize) : inBounds a = true := by
  rw [inBounds_iff]; exact ⟨by omega, by exact_mod_cast h⟩

theorem inBounds_natCast_ge {a : Nat} (h : Config.memSize ≤ a) : inBounds a = false := by
  have := mt (inBounds_iff (a : Int)).1 (fun h' => by omega)
  simpa using this

theorem atEndOfMemory_iff (c : Int) : atEndOfMemory c = true ↔ 100 ≤ c := decide_eq_true_iff

theorem atEndOfMemory_eq_false {c : Int} (h : c < 100) : atEndOfMemory c = false :=
  Bool.eq_false_iff.2 fun h' => by have := (atEndOfMemory_iff c).1 h'; omega

theorem isNegative_iff (w : Word n) : isNegative w = true ↔ w.toInt < 0 := decide_eq_true_iff

theorem isZero_iff (w : Word n) : isZero w = true ↔ w = 0 := decide_eq_true_iff

/-- Inside the address space the arbiter serves the Word. -/
theorem memRead_ok {a : Int} (h1 : 0 ≤ a) (h2 : a < Config.memSize) (s : State cfg) (k : Word cfg.wordBits → Result cfg) :
    memRead a s k = k (s.mem.read a.toNat) := by
  rw [memRead, if_pos ((inBounds_iff a).2 ⟨h1, h2⟩)]

/-- Outside it, the arbiter raises its fault and nothing else happens. -/
theorem memRead_outside {a : Int} (h : ¬(0 ≤ a ∧ a < Config.memSize)) (s : State cfg) (k : Word cfg.wordBits → Result cfg) :
    memRead a s k = raise (.addressOutOfRange a) s := by
  rw [memRead, if_neg (fun h' => h ((inBounds_iff a).1 h'))]

/-- A handler that reads an address of the address space goes on with its Word. -/
theorem withWordAt_ok {a : Nat} (h : a < Config.memSize) (s : State cfg) (k : Word cfg.wordBits → Result cfg) :
    withWordAt a s k = k (s.mem.read a) := by
  rw [withWordAt, memRead, if_pos (inBounds_natCast h), Int.toNat_natCast]

/-- A handler that writes an address of the address space goes on with the written memory. -/
theorem storingAt_ok {a : Nat} (h : a < Config.memSize) (v : Word cfg.wordBits) (s : State cfg) (k : Memory cfg.wordBits → Result cfg) :
    storingAt a v s k = k (s.mem.write a v) := by
  rw [storingAt, memWrite, if_pos (inBounds_natCast h), Int.toNat_natCast]

/-- Past the address space the arbiter's fault is raised and nothing else happens. -/
theorem withWordAt_outside {a : Nat} (h : Config.memSize ≤ a) (s : State cfg) (k : Word cfg.wordBits → Result cfg) :
    withWordAt a s k = raise (.addressOutOfRange a) s := by
  rw [withWordAt, memRead, inBounds_natCast_ge h, if_neg (by decide)]

theorem storingAt_outside {a : Nat} (h : Config.memSize ≤ a) (v : Word cfg.wordBits) (s : State cfg) (k : Memory cfg.wordBits → Result cfg) :
    storingAt a v s k = raise (.addressOutOfRange a) s := by
  rw [storingAt, memWrite, inBounds_natCast_ge h, if_neg (by decide)]

@[simp] theorem continueRun_eq_next {s t : State cfg} : continueRun s = .next t ↔ s = t := by simp [continueRun]

@[simp] theorem stopRun_eq_next {s t : State cfg} : stopRun s = .next t ↔ s.enterHalted = t := by simp [stopRun]

@[simp] theorem raise_eq_next {f : RuntimeFault} {s t : State cfg} :
    raise f s = .next t ↔ s.enterFaulted f = t := by simp [raise]

@[simp] theorem hold_eq_next {s t : State cfg} : hold s = .next t ↔ s = t := by simp [hold]

@[simp] theorem jump_eq (a : Nat) (s : State cfg) : jump a s = s.setCounter (a - 1) := rfl

end Sys2Proof.Machine
end

