-- ==== Sys2Proof/Laws/Exec.lean ====
section
/-! SUPPORT. What each meaning answers on an operand of the address space, in the named updates of State, and the case
analysis over everything an instruction can do when it is well formed. All of it in every configuration. -/

namespace Sys2Proof.Machine

variable {cfg : Config.Parameters}

theorem execRead_waits {a : Nat} {s : State cfg} (h : s.input = []) : execRead a s = .next s := by
  rw [execRead, h, hold]

theorem execRead_ok {a : Nat} (ha : a < Config.memSize) {s : State cfg} {v : Word cfg.wordBits} {rest : List (Word cfg.wordBits)}
    (h : s.input = v :: rest) : execRead a s = .next ((s.setMem (s.mem.write a v)).receive v rest) := by
  rw [execRead, h]
  exact storingAt_ok ha v s _

theorem execWrite_ok {a : Nat} (ha : a < Config.memSize) (s : State cfg) :
    execWrite a s = .next (s.emit (s.mem.read a)) := by
  rw [execWrite, withWordAt_ok ha, continueRun]

theorem execLoad_ok {a : Nat} (ha : a < Config.memSize) (s : State cfg) :
    execLoad a s = .next (s.setAcc (s.mem.read a)) := by
  rw [execLoad, withWordAt_ok ha, continueRun]

theorem execStore_ok {a : Nat} (ha : a < Config.memSize) (s : State cfg) :
    execStore a s = .next (s.setMem (s.mem.write a s.acc)) := by
  rw [execStore, storingAt_ok ha, continueRun]

theorem execAdd_ok {a : Nat} (ha : a < Config.memSize) (s : State cfg) :
    execAdd a s = .next (s.setAcc (Alu.add s.acc (s.mem.read a))) := by
  rw [execAdd, withWordAt_ok ha, continueRun]

theorem execSubtract_ok {a : Nat} (ha : a < Config.memSize) (s : State cfg) :
    execSubtract a s = .next (s.setAcc (Alu.sub s.acc (s.mem.read a))) := by
  rw [execSubtract, withWordAt_ok ha, continueRun]

theorem execDivide_ok {a : Nat} (ha : a < Config.memSize) {s : State cfg} (h : s.mem.read a ≠ 0) :
    execDivide a s = .next (s.setAcc (Alu.div s.acc (s.mem.read a) cfg.quotientOverflow)) := by
  rw [execDivide, withWordAt_ok ha, if_neg (by rwa [isZero_iff]), continueRun]

theorem execDivide_zero {a : Nat} (ha : a < Config.memSize) {s : State cfg} (h : s.mem.read a = 0) :
    execDivide a s = .next (s.enterFaulted (.divisionByZero a)) := by
  rw [execDivide, withWordAt_ok ha, if_pos ((isZero_iff _).2 h), raise]

theorem execMultiply_ok {a : Nat} (ha : a < Config.memSize) (s : State cfg) :
    execMultiply a s = .next (s.setAcc (Alu.mul s.acc (s.mem.read a))) := by
  rw [execMultiply, withWordAt_ok ha, continueRun]

theorem execBranchneg_taken {a : Nat} {s : State cfg} (h : s.acc.toInt < 0) :
    execBranchneg a s = .next (s.setCounter (a - 1)) := by
  rw [execBranchneg, if_pos ((isNegative_iff _).2 h), continueRun, jump_eq]

theorem execBranchneg_not_taken {a : Nat} {s : State cfg} (h : 0 ≤ s.acc.toInt) : execBranchneg a s = .next s := by
  rw [execBranchneg, if_neg (by rw [isNegative_iff]; omega), continueRun]

theorem execBranchzero_taken {a : Nat} {s : State cfg} (h : s.acc = 0) :
    execBranchzero a s = .next (s.setCounter (a - 1)) := by
  rw [execBranchzero, if_pos ((isZero_iff _).2 h), continueRun, jump_eq]

theorem execBranchzero_not_taken {a : Nat} {s : State cfg} (h : s.acc ≠ 0) : execBranchzero a s = .next s := by
  rw [execBranchzero, if_neg (by rwa [isZero_iff]), continueRun]

/-- The two selections of a meaning agree (Execute.lean, Dispatch.lean). -/
theorem exec_eq_execute : exec = execute (cfg := Config.hardware) := by
  funext i s
  cases i <;> rfl

/-- Everything a well-formed instruction can do: an effect of one of five shapes on one field (or, for READ,
on memory and the input port), nothing, or the divide fault. -/
theorem execute_cases {i : Instr} {s t : State cfg} (hw : i.WellFormed) (h : execute i s = .next t) :
    (t = s ∧ ((i.opcode = 10 ∧ s.input = []) ∨ (i.opcode = 41 ∧ 0 ≤ s.acc.toInt) ∨ (i.opcode = 42 ∧ s.acc ≠ 0))) ∨
    (i = .read i.operand ∧ ∃ v rest, s.input = v :: rest ∧ t = (s.setMem (s.mem.write i.operand v)).receive v rest) ∨
    (i = .write i.operand ∧ t = s.emit (s.mem.read i.operand)) ∨
    (i = .store i.operand ∧ t = s.setMem (s.mem.write i.operand s.acc)) ∨
    (i.opcode ∈ [20, 30, 31, 32, 33] ∧ ∃ v, t = s.setAcc v) ∨
    (i = .divide i.operand ∧ s.mem.read i.operand = 0 ∧ t = s.enterFaulted (.divisionByZero i.operand)) ∨
    (i.opcode ∈ [40, 41, 42] ∧ t = s.setCounter (i.operand - 1)) ∨
    (i = .halt i.operand ∧ t = (s.setCounter Config.memSize).enterHalted) := by
  cases i with
  | read a =>
    have hw : a < Config.memSize := hw
    cases hin : s.input with
    | nil =>
      rw [execute, execRead_waits hin] at h
      cases h
      exact .inl ⟨rfl, .inl ⟨rfl, rfl⟩⟩
    | cons v rest =>
      rw [execute, execRead_ok hw hin] at h
      cases h
      exact .inr (.inl ⟨rfl, v, rest, rfl, rfl⟩)
  | write a =>
    have hw : a < Config.memSize := hw
    rw [execute, execWrite_ok hw] at h
    cases h
    exact .inr (.inr (.inl ⟨rfl, rfl⟩))
  | load a =>
    have hw : a < Config.memSize := hw
    rw [execute, execLoad_ok hw] at h
    cases h
    exact .inr (.inr (.inr (.inr (.inl ⟨by simp [Instr.opcode], _, rfl⟩))))
  | store a =>
    have hw : a < Config.memSize := hw
    rw [execute, execStore_ok hw] at h
    cases h
    exact .inr (.inr (.inr (.inl ⟨rfl, rfl⟩)))
  | add a =>
    have hw : a < Config.memSize := hw
    rw [execute, execAdd_ok hw] at h
    cases h
    exact .inr (.inr (.inr (.inr (.inl ⟨by simp [Instr.opcode], _, rfl⟩))))
  | subtract a =>
    have hw : a < Config.memSize := hw
    rw [execute, execSubtract_ok hw] at h
    cases h
    exact .inr (.inr (.inr (.inr (.inl ⟨by simp [Instr.opcode], _, rfl⟩))))
  | divide a =>
    have hw : a < Config.memSize := hw
    by_cases hd : s.mem.read a = 0
    · rw [execute, execDivide_zero hw hd] at h
      cases h
      exact .inr (.inr (.inr (.inr (.inr (.inl ⟨rfl, hd, rfl⟩)))))
    · rw [execute, execDivide_ok hw hd] at h
      cases h
      exact .inr (.inr (.inr (.inr (.inl ⟨by simp [Instr.opcode], _, rfl⟩))))
  | multiply a =>
    have hw : a < Config.memSize := hw
    rw [execute, execMultiply_ok hw] at h
    cases h
    exact .inr (.inr (.inr (.inr (.inl ⟨by simp [Instr.opcode], _, rfl⟩))))
  | branch a =>
    rw [execute, execBranch, continueRun, jump_eq] at h
    cases h
    exact .inr (.inr (.inr (.inr (.inr (.inr (.inl ⟨by simp [Instr.opcode], rfl⟩))))))
  | branchneg a =>
    by_cases hn : s.acc.toInt < 0
    · rw [execute, execBranchneg_taken hn] at h
      cases h
      exact .inr (.inr (.inr (.inr (.inr (.inr (.inl ⟨by simp [Instr.opcode], rfl⟩))))))
    · rw [execute, execBranchneg_not_taken (by omega)] at h
      cases h
      exact .inl ⟨rfl, .inr (.inl ⟨rfl, by omega⟩)⟩
  | branchzero a =>
    by_cases hz : s.acc = 0
    · rw [execute, execBranchzero_taken hz] at h
      cases h
      exact .inr (.inr (.inr (.inr (.inr (.inr (.inl ⟨by simp [Instr.opcode], rfl⟩))))))
    · rw [execute, execBranchzero_not_taken hz] at h
      cases h
      exact .inl ⟨rfl, .inr (.inr ⟨rfl, hz⟩)⟩
  | halt a =>
    rw [execute, execHalt, stopRun] at h
    cases h
    exact .inr (.inr (.inr (.inr (.inr (.inr (.inr ⟨rfl, rfl⟩))))))

end Sys2Proof.Machine
end

