-- ==== Sys2Proof/Laws/Invariant.lean ====
section
/-! SUPPORT. What it takes to meet the engine invariant in each of the states Running, Halted and Faulted. -/

namespace Sys2Proof.Machine

variable {cfg : Config.Parameters}

/-- A Running engine, between cycles. -/
theorem EngineInv.of_running {t : State cfg} (hm : t.mem.wf) (ho : t.opCode = Alu.div100 t.instruction)
    (ha : t.operand = Alu.mod100 t.instruction) (hs : t.state = .running) (hf : t.fault = none)
    (hc : -1 ≤ t.counter ∧ t.counter < 100) (hk : t.opCode.toInt ≠ 43) (hr : t.result = none) : EngineInv t where
  memory_canonical := hm
  opCode_decoded := by rw [ho, Alu.div100_toInt]
  operand_decoded := by rw [ha, Alu.mod100_toInt]
  faulted_iff := by simp [hs, hf]
  ready_fresh := by simp [hs]
  running_counter := fun _ => hc
  running_opCode := fun _ => hk
  running_result := fun _ => hr
  halted_counter := by simp [hs]
  faulted_explained := by simp [hf]

/-- A Halted engine. -/
theorem EngineInv.of_halted {t : State cfg} (hm : t.mem.wf) (ho : t.opCode.toInt = t.instruction.toInt.tdiv 100)
    (ha : t.operand.toInt = t.instruction.toInt.tmod 100) (hs : t.state = .halted) (hf : t.fault = none)
    (hc : t.counter = 100) : EngineInv t where
  memory_canonical := hm
  opCode_decoded := ho
  operand_decoded := ha
  faulted_iff := by simp [hs, hf]
  ready_fresh := by simp [hs]
  running_counter := by simp [hs]
  running_opCode := by simp [hs]
  running_result := by simp [hs]
  halted_counter := fun _ => hc
  faulted_explained := by simp [hf]

/-- A Faulted engine. -/
theorem EngineInv.of_faulted {t : State cfg} {f : RuntimeFault} (hm : t.mem.wf) (ho : t.opCode = Alu.div100 t.instruction)
    (ha : t.operand = Alu.mod100 t.instruction) (hs : t.state = .faulted) (hf : t.fault = some f)
    (hc : 0 ≤ t.counter ∧ t.counter < 100) (hi : t.instruction = t.mem.read t.counter.toNat)
    (he : FaultExplained t f) : EngineInv t where
  memory_canonical := hm
  opCode_decoded := by rw [ho, Alu.div100_toInt]
  operand_decoded := by rw [ha, Alu.mod100_toInt]
  faulted_iff := by simp [hs, hf]
  ready_fresh := by simp [hs]
  running_counter := by simp [hs]
  running_opCode := by simp [hs]
  running_result := by simp [hs]
  halted_counter := by simp [hs]
  faulted_explained := by
    intro g hg
    obtain rfl : f = g := by simpa [hf] using hg
    exact ⟨hc.1, hc.2, hi, he⟩

end Sys2Proof.Machine
end

