-- ==== Sys2Proof/Laws/PerInstr.lean ====
section
/-! SUPPORT. Statements made per instruction (LAWS.json). `WordFields`: the Word of a well-formed instruction is its
opcode times 100 plus its operand (30_encoding.md R80, R96), and lies in its row of the table (R86), at every width of
00_scope.md R6. -/

namespace Sys2Proof.Laws.WordFields

/-- The integer value of the instruction's Word, and its row `match .. match + 99` (R95). -/
def Statement (i : Instr) : Prop :=
  i.WellFormed → ∀ n : Nat, 16 ≤ n → (encode i n).toInt = i.opcode * 100 + i.operand ∧
    i.opcode * 100 ≤ (encode i n).toInt ∧ (encode i n).toInt ≤ i.opcode * 100 + 99

/-- The shape of every case: the opcode `k` is small and the operand has two digits. -/
theorem of_opcode {i : Instr} (k : Nat) (h1 : i.opcode = k) (h2 : k < 100) : Statement i := by
  intro hw n hn
  have hw : i.operand < 100 := hw
  have e : (encode i n).toInt = i.opcode * 100 + i.operand :=
    encodeFields_toInt hn (by omega) (by omega) (by omega) (by omega)
  exact ⟨e, by omega, by omega⟩

theorem read (a : Nat) : Statement (.read a) := of_opcode 10 rfl (by decide)
theorem write (a : Nat) : Statement (.write a) := of_opcode 11 rfl (by decide)
theorem load (a : Nat) : Statement (.load a) := of_opcode 20 rfl (by decide)
theorem store (a : Nat) : Statement (.store a) := of_opcode 21 rfl (by decide)
theorem add (a : Nat) : Statement (.add a) := of_opcode 30 rfl (by decide)
theorem subtract (a : Nat) : Statement (.subtract a) := of_opcode 31 rfl (by decide)
theorem divide (a : Nat) : Statement (.divide a) := of_opcode 32 rfl (by decide)
theorem multiply (a : Nat) : Statement (.multiply a) := of_opcode 33 rfl (by decide)
theorem branch (a : Nat) : Statement (.branch a) := of_opcode 40 rfl (by decide)
theorem branchneg (a : Nat) : Statement (.branchneg a) := of_opcode 41 rfl (by decide)
theorem branchzero (a : Nat) : Statement (.branchzero a) := of_opcode 42 rfl (by decide)
theorem halt (a : Nat) : Statement (.halt a) := of_opcode 43 rfl (by decide)

end Sys2Proof.Laws.WordFields
end

