-- ==== Sys2Proof/Laws/Step.lean ====
section
/-! SUPPORT. What a step can do: one equation per way a cycle goes, the unfolding of a run, and the case analysis over all of them. -/

namespace Sys2Proof.Machine

variable {cfg : Config.Parameters} (run : Instr → State cfg → Result cfg)

/-- A run of one step more, when the first step answers next. -/
theorem run_succ_of_next (M : Host.Core) (k : Nat) {s t : M.State} (h : M.step s = .next t) :
    M.run (k + 1) s = M.run k t := by
  simp [Host.Core.run, h]

/-- The step of this hardware is the step of its family in its own configuration. -/
theorem step_eq_stepAt : step = stepAt (cfg := Config.hardware) := by
  funext s
  rw [step, stepAt, exec_eq_execute]

theorem stepAt_running {s : State cfg} (h : s.state = .running) : stepAt s = cycle execute s := by
  simp [stepAt, stepEngine, h]

theorem stepAt_not_running {s : State cfg} (h : s.state ≠ .running) : stepAt s = serveHost s := by
  unfold stepAt stepEngine
  cases hs : s.state <;> simp_all

theorem step_running {s : State} (h : s.state = .running) : step s = cycle exec s := by
  simp [step, stepEngine, h]

theorem step_not_running {s : State} (h : s.state ≠ .running) : step s = serveHost s := by
  rw [step_eq_stepAt, stepAt_not_running h]

theorem serveHost_nil {s : State cfg} (h : s.commands = []) : serveHost s = .next s := by
  simp [serveHost, h, hold]

theorem serveHost_cons {s : State cfg} {c : Command cfg.wordBits} {cs : List (Command cfg.wordBits)} (h : s.commands = c :: cs) :
    serveHost s = serveCommand c { s with commands := cs } := by
  simp [serveHost, h]

/-- Past the end of memory a cycle halts (R101). -/
theorem cycle_end {s : State cfg} (h : (Config.memSize : Int) ≤ s.counter + 1) :
    cycle run s = .next (s.setCounter (s.counter + 1)).enterHalted := by
  rw [cycle, Alu.inc, if_pos ((atEndOfMemory_iff _).2 h), stopRun]

/-- Inside memory a cycle decodes the Word it fetches and dispatches it (R102). -/
theorem cycle_fetch {s : State cfg} (h1 : 0 ≤ s.counter + 1) (h2 : s.counter + 1 < Config.memSize) :
    cycle run s = dispatchDecoded run (s.counter + 1) (s.mem.read (s.counter + 1).toNat) s
      (decodeWith cfg.reservedOpcodes (s.mem.read (s.counter + 1).toNat)) := by
  rw [cycle, Alu.inc, atEndOfMemory_eq_false h2, if_neg (by decide), memRead_ok h1 h2, State.setCounter_mem]

/-- Below the address space, which no run reaches, the arbiter faults (R56). -/
theorem cycle_below {s : State cfg} (h : s.counter + 1 < 0) :
    cycle run s = .next ((s.setCounter (s.counter + 1)).enterFaulted (.addressOutOfRange (s.counter + 1))) := by
  rw [cycle, Alu.inc, atEndOfMemory_eq_false (by omega), if_neg (by decide), memRead_outside (by omega), raise]

theorem dispatch_instr {c : Int} {w : Word cfg.wordBits} {s : State cfg} {i : Instr} (hr : inputReady i s = true) :
    dispatchDecoded run c w s (.instr i) = run i (s.latch c w) := by
  rw [dispatchDecoded, if_pos hr]

theorem dispatch_held {c : Int} {w : Word cfg.wordBits} {s : State cfg} {i : Instr} (hr : inputReady i s = false) :
    dispatchDecoded run c w s (.instr i) = .next s := by
  rw [dispatchDecoded, hr, if_neg (by decide), hold]

/-- Only a READ waits, and only for input (R121). -/
theorem inputReady_eq_false_iff (i : Instr) (s : State cfg) :
    inputReady i s = false ↔ s.input = [] ∧ ∃ a, i = .read a := by
  cases i <;> simp [inputReady]

/-- Everything a cycle can do. -/
theorem cycle_cases (s : State cfg) :
    ((Config.memSize : Int) ≤ s.counter + 1 ∧ cycle run s = .next (s.setCounter (s.counter + 1)).enterHalted) ∨
    (s.counter + 1 < 0 ∧
      cycle run s = .next ((s.setCounter (s.counter + 1)).enterFaulted (.addressOutOfRange (s.counter + 1)))) ∨
    (∃ c : Nat, c < Config.memSize ∧ s.counter + 1 = c ∧
      ((∃ r k, decodeWith cfg.reservedOpcodes (s.mem.read c) = .rejected r k ∧
          cycle run s = .next ((s.latch c (s.mem.read c)).enterFaulted
            (.runtimeUnknownOpcode (Alu.div100 (s.mem.read c)).toInt))) ∨
       (∃ a, decodeWith cfg.reservedOpcodes (s.mem.read c) = .instr (.read a) ∧ s.input = [] ∧ cycle run s = .next s) ∨
       (∃ i, decodeWith cfg.reservedOpcodes (s.mem.read c) = .instr i ∧ inputReady i s = true ∧
          cycle run s = run i (s.latch c (s.mem.read c))))) := by
  by_cases h1 : (Config.memSize : Int) ≤ s.counter + 1
  · exact .inl ⟨h1, cycle_end run h1⟩
  by_cases h2 : s.counter + 1 < 0
  · exact .inr (.inl ⟨h2, cycle_below run h2⟩)
  refine .inr (.inr ⟨(s.counter + 1).toNat, by omega, by omega, ?_⟩)
  have hc := cycle_fetch run (s := s) (by omega) (by omega)
  have e : s.counter + 1 = ((s.counter + 1).toNat : Int) := by omega
  rw [hc]
  cases hd : decodeWith cfg.reservedOpcodes (s.mem.read (s.counter + 1).toNat) with
  | rejected r k => exact .inl ⟨r, k, rfl, by rw [← e]; rfl⟩
  | instr i =>
    cases hr : inputReady i s with
    | true => exact .inr (.inr ⟨i, rfl, hr, by rw [dispatch_instr run hr, ← e]⟩)
    | false =>
      obtain ⟨hi, a, rfl⟩ := (inputReady_eq_false_iff i s).1 hr
      exact .inr (.inl ⟨a, rfl, hi, dispatch_held run hr⟩)

end Sys2Proof.Machine
end

