-- ==== Sys2Proof/Laws/Widen.lean ====
section
/-! SUPPORT. What widening keeps: each field of State, the value of a Word, and the Word that memory reads. -/

namespace Sys2Proof.Machine

variable {n : Nat} {cfg : Config.Parameters}

@[simp] theorem State.widen_acc (q : Config.Parameters) (s : State cfg) : (s.widen q).acc = widenWord q.wordBits s.acc := rfl
@[simp] theorem State.widen_counter (q : Config.Parameters) (s : State cfg) : (s.widen q).counter = s.counter := rfl
@[simp] theorem State.widen_instruction (q : Config.Parameters) (s : State cfg) : (s.widen q).instruction = widenWord q.wordBits s.instruction := rfl
@[simp] theorem State.widen_opCode (q : Config.Parameters) (s : State cfg) : (s.widen q).opCode = widenWord q.wordBits s.opCode := rfl
@[simp] theorem State.widen_operand (q : Config.Parameters) (s : State cfg) : (s.widen q).operand = widenWord q.wordBits s.operand := rfl
@[simp] theorem State.widen_state (q : Config.Parameters) (s : State cfg) : (s.widen q).state = s.state := rfl
@[simp] theorem State.widen_fault (q : Config.Parameters) (s : State cfg) : (s.widen q).fault = s.fault := rfl
@[simp] theorem State.widen_mem (q : Config.Parameters) (s : State cfg) : (s.widen q).mem = s.mem.map fun c => (c.1, widenWord q.wordBits c.2) := rfl
@[simp] theorem State.widen_inHist (q : Config.Parameters) (s : State cfg) : (s.widen q).inHist = s.inHist.map (widenWord q.wordBits) := rfl
@[simp] theorem State.widen_outHist (q : Config.Parameters) (s : State cfg) : (s.widen q).outHist = s.outHist.map (widenWord q.wordBits) := rfl
@[simp] theorem State.widen_input (q : Config.Parameters) (s : State cfg) : (s.widen q).input = s.input.map (widenWord q.wordBits) := rfl
@[simp] theorem State.widen_commands (q : Config.Parameters) (s : State cfg) : (s.widen q).commands = s.commands.map (Command.widen q.wordBits) := rfl
@[simp] theorem State.widen_result (q : Config.Parameters) (s : State cfg) : (s.widen q).result = s.result := rfl

@[simp] theorem widenWord_zero (m : Nat) : widenWord m (0 : Word n) = 0 := by simp [widenWord, Alu.wrap]

/-- A wider Word has the same value. -/
theorem toInt_widenWord (hn : 0 < n) {m : Nat} (hm : n ≤ m) (w : Word n) : (widenWord m w).toInt = w.toInt := by
  obtain ⟨h1, h2⟩ := Alu.toInt_bounds hn w
  have : (2 : Int) ^ (n - 1) ≤ 2 ^ (m - 1) := pow_le_pow_right₀ (by decide) (by omega)
  unfold wmin wmax at *
  exact Alu.toInt_wrap_of_range (by omega) (by unfold wmin; omega) (by unfold wmax; omega)

/-- Different Words stay different. -/
theorem widenWord_inj (hn : 0 < n) {m : Nat} (hm : n ≤ m) {v w : Word n} : widenWord m v = widenWord m w ↔ v = w := by
  refine ⟨fun h => BitVec.eq_of_toInt_eq ?_, fun h => by rw [h]⟩
  rw [← toInt_widenWord hn hm v, h, toInt_widenWord hn hm]

/-- A widened memory reads the widened Words. -/
theorem Memory.read_widen (m : Nat) (M : Memory n) (a : Nat) :
    Memory.read (M.map fun c => (c.1, widenWord m c.2)) a = widenWord m (M.read a) := by
  induction M with
  | nil => exact (widenWord_zero m).symm
  | cons c M ih =>
    obtain ⟨k, x⟩ := c
    rw [List.map_cons, Memory.read_cell, Memory.read_cell, ih]
    split <;> rfl

end Sys2Proof.Machine
end

