-- ==== Sys2Proof/Tests/Slice0.lean ====
section
/-! SUPPORT. Tests. Expected values are those of spec/95_test_vectors.md (V and S numbers) or of the rule named; then, for
every statement with hypotheses, a state and operands that meet them (names begin with witness_). -/

namespace Sys2Proof.Tests

open Sys2Proof.Machine

/-- A Running engine about to fetch from `c + 1`. -/
def at_ (c : Int) (acc : Word) (mem : Memory) (input : List Word) : State :=
  { State.reset with state := .running, counter := c, acc := acc, mem := mem, input := input }

/-- `Validate` at the width of this hardware. -/
abbrev validated (reserved : List Int) (p : List Word) : ValidateResult := validate reserved p

/-- The state one step later. -/
def after (s : State) : State :=
  match step s with
  | .next t => t
  | .fault _ => s
  | .refused _ => s

/-! ### Well-formedness: an operand of three digits is refused in every constructor -/

theorem test_operand_past_memory_is_ill_formed :
    ¬(Instr.read 100).WellFormed ∧ ¬(Instr.write 100).WellFormed ∧ ¬(Instr.load 100).WellFormed ∧
    ¬(Instr.store 100).WellFormed ∧ ¬(Instr.add 100).WellFormed ∧ ¬(Instr.subtract 100).WellFormed ∧
    ¬(Instr.divide 100).WellFormed ∧ ¬(Instr.multiply 100).WellFormed ∧ ¬(Instr.branch 100).WellFormed ∧
    ¬(Instr.branchneg 100).WellFormed ∧ ¬(Instr.branchzero 100).WellFormed ∧ ¬(Instr.halt 100).WellFormed := by
  decide

theorem test_operand_99_is_well_formed : (Instr.read 99).WellFormed ∧ (Instr.halt 0).WellFormed := by decide

/-! ### Decode and encode (R86, R83, V1 to V18): every constructor by a Word written out -/

theorem test_decode_read : decode (1007 : Word) = .instr (.read 7) := by decide
theorem test_decode_write : decode (1109 : Word) = .instr (.write 9) := by decide
theorem test_decode_load : decode (2007 : Word) = .instr (.load 7) := by decide
theorem test_decode_store : decode (2199 : Word) = .instr (.store 99) := by decide
theorem test_decode_add : decode (3008 : Word) = .instr (.add 8) := by decide
theorem test_decode_subtract : decode (3111 : Word) = .instr (.subtract 11) := by decide
theorem test_decode_divide : decode (3210 : Word) = .instr (.divide 10) := by decide
theorem test_decode_multiply : decode (3308 : Word) = .instr (.multiply 8) := by decide
theorem test_decode_branch : decode (4005 : Word) = .instr (.branch 5) := by decide
theorem test_decode_branchneg : decode (4106 : Word) = .instr (.branchneg 6) := by decide
theorem test_decode_branchzero : decode (4208 : Word) = .instr (.branchzero 8) := by decide
theorem test_decode_halt : decode (4399 : Word) = .instr (.halt 99) := by decide

/-- R82: 1007 is 0x000003EF and 4300 is 0x000010CC. -/
theorem test_decode_bit_patterns : decode (0x000003EF : Word) = .instr (.read 7) ∧ decode (0x000010CC : Word) = .instr (.halt 0) := by
  decide

/-- V12, V14, V16, V17, V18, V4. -/
theorem test_decode_rejects :
    decodeWith [] (-1007 : Word) = .rejected .absent (-10) ∧ decodeWith [] (10007 : Word) = .rejected .absent 100 ∧
    decodeWith [] (2147483647 : Word) = .rejected .absent 21474836 ∧
    decodeWith [] (-2147483648 : Word) = .rejected .absent (-21474836) ∧
    decodeWith [34] (3400 : Word) = .rejected .reserved 34 ∧ decodeWith [] (0 : Word) = .rejected .absent 0 := by decide

/-- R96 and the examples below the table of V1 to V18. -/
theorem test_encode : encode (.read 7) = 1007 ∧ encode (.halt 0) = 4300 ∧ encode (.store 99) = 2199 := by decide

/-- R7: the table's opcodes are IMPLEMENTED_OPCODES, in its order. -/
theorem test_table_is_implemented_opcodes : opcodeTable.map Row.code = Config.implementedOpcodes := by decide

/-- No two rows of the table share an opcode. -/
theorem test_table_has_no_overlap : (opcodeTable.map Row.code).Nodup := by decide

theorem test_table_word : decodeTableWord 32 1007 = some (.read 7) ∧ decodeTableWord 16 4300 = some (.halt 0) := by
  decide

/-! ### One cycle each (V40 to V79) -/

/-- V42: no check against 9999. -/
theorem test_read_negative : (after (at_ 2 0 [(3, 1050)] [-123456])).mem.read 50 = -123456 := by decide

/-- V46: no cycle takes place. -/
theorem test_read_waits : after (at_ (-1) 0 [(0, 1007)] []) = at_ (-1) 0 [(0, 1007)] [] := by decide

/-- V48. -/
theorem test_write_negative : (after (at_ 4 0 [(5, 1150), (50, -123456)] [])).outHist = [-123456] := by decide

/-- V49: an instruction Word written as data. -/
theorem test_write_itself : (after (at_ (-1) 0 [(0, 1100)] [])).outHist = [1100] := by decide

/-- V52. -/
theorem test_load : (after (at_ 1 999 [(2, 2007), (7, -5)] [])).acc = -5 := by decide

/-- V53. -/
theorem test_load_itself : (after (at_ (-1) 0 [(0, 2000)] [])).acc = 2000 := by decide

/-- V56. -/
theorem test_store_last :
    (after (at_ 3 (-2147483648) [(4, 2199), (99, 3)] [])).mem = [(4, 2199), (99, -2147483648)] := by decide

/-- V58: the STORE overwrites its own Word, and the instruction register keeps the old one. -/
theorem test_store_itself : (after (at_ 0 4000 [(1, 2101)] [])).mem = [(1, 4000)] ∧
    (after (at_ 0 4000 [(1, 2101)] [])).instruction = 2101 := by decide

/-- V104. -/
theorem test_add_wraps : (after (at_ 0 2147483647 [(1, 3020), (20, 1)] [])).acc = -2147483648 := by decide

/-- V101. -/
theorem test_add_signs : (after (at_ 0 (-5) [(1, 3020), (20, 3)] [])).acc = -2 := by decide

/-- V107: `acc - m`. -/
theorem test_subtract_order : (after (at_ 0 3 [(1, 3120), (20, 5)] [])).acc = -2 := by decide

/-- V111. -/
theorem test_subtract_wraps : (after (at_ 0 2147483647 [(1, 3120), (20, -1)] [])).acc = -2147483648 := by decide

/-- V118. -/
theorem test_multiply_wraps : (after (at_ 0 46341 [(1, 3320), (20, 46341)] [])).acc = -2147479015 := by decide

/-- V121. -/
theorem test_multiply_wraps_far : (after (at_ 0 123456789 [(1, 3320), (20, 1000)] [])).acc = -1097262584 := by decide

/-- V123: toward zero, not -4. -/
theorem test_divide_truncates : (after (at_ 0 (-7) [(1, 3220), (20, 2)] [])).acc = -3 := by decide

/-- V133 and P3: the fault, with `acc` and `counter` kept. -/
theorem test_divide_by_zero :
    (after (at_ 1 42 [(2, 3211)] [])).fault = some (.divisionByZero 11) ∧
    (after (at_ 1 42 [(2, 3211)] [])).state = .faulted ∧
    (after (at_ 1 42 [(2, 3211)] [])).acc = 42 ∧ (after (at_ 1 42 [(2, 3211)] [])).counter = 2 := by decide

/-- V125, V127, V131, V132 on the ALU. -/
theorem test_alu_division : Alu.div (-7 : Word) (-2) = 3 ∧ Alu.div (-5 : Word) 7 = 0 ∧
    Alu.div (-2147483648 : Word) (-1) = -2147483648 ∧ Alu.div (-2147483648 : Word) 2 = -1073741824 := by decide

/-- V62: to itself, so `counter` ends at -1. -/
theorem test_branch_to_zero : (after (at_ (-1) 0 [(0, 4000)] [])).counter = -1 := by decide

/-- V63. -/
theorem test_branch_to_last : (after (at_ 4 0 [(5, 4099)] [])).counter = 98 := by decide

/-- V66: zero is not negative. -/
theorem test_branchneg_zero : (after (at_ 1 0 [(2, 4106)] [])).counter = 2 := by decide

/-- V68. -/
theorem test_branchneg_wmin : (after (at_ 1 (-2147483648) [(2, 4106)] [])).counter = 5 := by decide

/-- V69. -/
theorem test_branchzero_taken : (after (at_ 2 0 [(3, 4208)] [])).counter = 7 := by decide

/-- V71. -/
theorem test_branchzero_negative : (after (at_ 2 (-1) [(3, 4208)] [])).counter = 3 := by decide

/-- V73: the operand is ignored. -/
theorem test_halt_any_operand : (after (at_ 5 9 [(6, 4399)] [])).counter = 100 ∧
    (after (at_ 5 9 [(6, 4399)] [])).state = .halted ∧ (after (at_ 5 9 [(6, 4399)] [])).operand = 99 := by decide

/-- V74: at the last address. -/
theorem test_halt_at_last : NormalEnd (after (at_ 98 9 [(99, 4300)] [])) := ⟨by decide, by decide⟩

/-- V75, second cycle: end of memory. -/
theorem test_end_of_memory : (after (at_ 99 7 [(99, 2000)] [])).state = .halted ∧
    (after (at_ 99 7 [(99, 2000)] [])).counter = 100 ∧ (after (at_ 99 7 [(99, 2000)] [])).fault = none := by decide

/-- V78: a negative Word. -/
theorem test_uncallable_word : (after (at_ 0 5 [(1, -1007)] [])).fault = some (.runtimeUnknownOpcode (-10)) ∧
    (after (at_ 0 5 [(1, -1007)] [])).operand = -7 ∧ (after (at_ 0 5 [(1, -1007)] [])).counter = 1 := by decide

/-- V76: a fetched zero. -/
theorem test_fetched_zero : GoneWrong (after (at_ 1 5 [] [])) ∧
    (after (at_ 1 5 [] [])).fault = some (.runtimeUnknownOpcode 0) :=
  ⟨by unfold GoneWrong; decide, by decide⟩

/-! ### Host commands (V20 to V36, V80 to V89) -/

/-- V26, V27, V28, V32, V35, V36. -/
theorem test_validate_first_failure : validated [] [3400] = .unknownOpcode 34 ∧
    validated [34] [3400] = .unimplementedOpcode 34 ∧ validated [] [1007, 0, 9900] = .invalidInstructionZero ∧
    validated [] [1007, 9900, 0] = .unknownOpcode 99 ∧ validated [] [-1007] = .unknownOpcode (-10) ∧
    validated [] [4300, 1] = .unknownOpcode 0 ∧ validated [] [1007, 4300, 0] = .invalidInstructionZero := by decide

/-- V20 to V24. -/
theorem test_validate_length : validated [] (List.replicate 101 4300) = .programTooLarge ∧
    validated [] (List.replicate 100 4300) = .ok ∧ validated [] (List.replicate 101 0) = .programTooLarge ∧
    validated [] [] = .ok ∧ validated [] [1007, 1008, 2007, 3008, 2109, 1109, 4300] = .ok := by decide

/-- V84: nothing changes but the result given back. -/
theorem test_run_too_large :
    after (State.reset.issue (.run (List.replicate 101 4300))) =
      State.reset.giveBack (.ran .programTooLarge) := by decide

/-- V82: the start of a run on a used engine keeps the Words beyond the program. -/
theorem test_run_keeps_the_rest :
    (after ({ State.reset with
        state := .halted, counter := 100, mem := [(0, 1010), (1, 2010), (2, 3211), (3, 4300), (10, 42)] }.issue
          (.run [1107, 4300]))).mem = [(0, 1107), (1, 4300), (2, 3211), (3, 4300), (10, 42)] := by decide

/-- V89: power-on clears memory. -/
theorem test_power_on : after ((at_ 0 5 [(3, 7)] []).enterHalted.issue .powerOn) = State.reset := by decide

/-- R200: no snapshot while Running, and one of the fresh engine. -/
theorem test_snapshot : snapshot (at_ 0 0 [] []) = none ∧
    ((snapshot State.reset).map (fun n => n.mem)) = some (List.replicate 100 0) := by decide

theorem test_reset_memory_canonical : State.reset.mem.wf := Memory.wf_nil

/-- The host's placed Word runs as the first instruction after reset (log 10). -/
theorem test_fetch_word_runs : (after (State.reset.withFetchWord 32 1007)).mem.read 7 = 5 ∧
    (after (State.reset.withFetchWord 32 4300)).state = .halted := by decide

/-! ### Witnesses: each meets all the hypotheses of the statement it is named after -/

/-- A Running engine whose memory is canonical meets the invariant. -/
theorem inv_at {c : Int} {acc : Word} {mem : Memory} {input : List Word} (hm : mem.wf) (hc : -1 ≤ c ∧ c < 100) :
    EngineInv (at_ c acc mem input) :=
  EngineInv.of_running hm (by decide : (0 : Word) = Alu.div100 0) (by decide : (0 : Word) = Alu.mod100 0) rfl rfl hc
    (by decide : (0 : Word).toInt ≠ 43) rfl

theorem witness_DecodeInvertsEncode : (Instr.store 99).WellFormed ∧ encode (.store 99) = 2199 := by decide

theorem witness_EncodedFieldsDecodeBack :
    ((0 : Int) ≤ 99 ∧ (99 : Int) ≤ 99) ∧ ((0 : Int) ≤ 0 ∧ (0 : Int) ≤ 99) ∧
    (encodeFields 99 99).toInt = 9999 ∧ (encodeFields 0 0).toInt = 0 := by decide

theorem witness_LookupIsThreeWay : Config.ReservedDisjoint [34, -3, 500] ∧
    lookup [34, -3, 500] 34 = .uncallable .reserved ∧ lookup [34, -3, 500] 43 = .implemented .halt ∧
    lookup [34, -3, 500] 44 = .uncallable .absent :=
  ⟨by unfold Config.ReservedDisjoint; decide, by decide, by decide, by decide⟩

theorem witness_HandlerOperandIsInRange :
    decodeWith [34] (1000 : Word) = .instr (.read 0) ∧ decodeWith [] (4399 : Word) = .instr (.halt 99) := by decide

theorem witness_Fetches_first_and_last :
    Fetches (at_ (-1) 0 [(0, 1007)] [5]) 0 1007 ∧ Fetches (at_ 98 0 [(99, 4300)] []) 99 4300 :=
  ⟨⟨rfl, by decide, by decide, by decide⟩, ⟨rfl, by decide, by decide, by decide⟩⟩

theorem witness_StepRunsDecodedInstruction :
    Fetches (at_ (-1) 0 [(0, 1007)] [5]) 0 1007 ∧ decode (1007 : Word) = .instr (.read 7) ∧
    inputReady (.read 7) (at_ (-1) 0 [(0, 1007)] [5]) = true :=
  ⟨witness_Fetches_first_and_last.1, by decide, by decide⟩

theorem witness_EndOfMemoryHalts :
    (at_ 99 0 [] []).state = .running ∧ (Config.memSize : Int) ≤ (at_ 99 0 [] []).counter + 1 ∧
    EngineInv (at_ 99 0 [] []) ∧ EngineInv (at_ (-1) 0 [] []) :=
  ⟨rfl, by decide, inv_at Memory.wf_nil (by decide), inv_at Memory.wf_nil (by decide)⟩

theorem witness_UncallableOpcodeFaults :
    Fetches (at_ 98 0 [(99, -5)] []) 99 (-5) ∧ (-5 : Word).toInt.tdiv 100 ∉ Config.implementedOpcodes :=
  ⟨⟨rfl, by decide, by decide, by decide⟩, by decide⟩

/-- The four ways of R106: end of memory, lookup fault, DIVIDE by zero, HALT. -/
theorem witness_RunEndsInFourWays :
    (EngineInv (at_ 99 0 [] []) ∧ ∃ t, step (at_ 99 0 [] []) = .next t ∧ t.state ≠ .running) ∧
    (EngineInv (at_ 98 0 [] []) ∧ ∃ t, step (at_ 98 0 [] []) = .next t ∧ t.state ≠ .running) ∧
    (EngineInv (at_ (-1) 0 [(0, 3200 + 11)] []) ∧
      ∃ t, step (at_ (-1) 0 [(0, 3200 + 11)] []) = .next t ∧ t.state ≠ .running) ∧
    (EngineInv (at_ (-1) 0 [(0, 4300)] []) ∧
      ∃ t, step (at_ (-1) 0 [(0, 4300)] []) = .next t ∧ t.state ≠ .running) :=
  ⟨⟨inv_at Memory.wf_nil (by decide), _, rfl, by decide⟩, ⟨inv_at Memory.wf_nil (by decide), _, rfl, by decide⟩,
   ⟨inv_at (by decide) (by decide), _, rfl, by decide⟩, ⟨inv_at (by decide) (by decide), _, rfl, by decide⟩⟩

theorem witness_FaultsArePrecise :
    (at_ (-1) 8 [] []).state = .running ∧ -1 ≤ (at_ (-1) 8 [] []).counter ∧
    ∃ t, step (at_ (-1) 8 [] []) = .next t ∧ t.state = .faulted :=
  ⟨rfl, by decide, _, rfl, by decide⟩

/-- The table of R30: a cycle that ends, a power-on and a run that is served. -/
theorem witness_FsmTransitionsAreComplete :
    (∃ t, step (at_ 99 0 [] []) = .next t ∧ t.state = .halted) ∧
    (∃ t, step (State.reset.issue .powerOn) = .next t ∧ t.state = .ready) ∧
    (∃ t, step (State.reset.issue (.run [4300])) = .next t ∧ t.state = .running) :=
  ⟨⟨_, rfl, by decide⟩, ⟨_, rfl, by decide⟩, ⟨_, rfl, by decide⟩⟩

theorem witness_CycleIgnoresHostAndLaterInput :
    (at_ (-1) 0 [(0, 1007)] [5]).state = .running ∧
    ((at_ (-1) 0 [(0, 1007)] [5]).input = [] → ([6] : List Word) = []) ∧
    ∃ t, step (at_ (-1) 0 [(0, 1007)] [5]) = .next t :=
  ⟨rfl, by decide, _, rfl⟩

/-- READ: its clauses at the lowest and the highest address, with input and without. -/
theorem witness_ReadStoresTheDeliveredWord :
    (0 < Config.memSize ∧ 99 < Config.memSize) ∧
    ((at_ 0 0 [(0, 1099)] [5, 6]).mem.wf ∧ (at_ 0 0 [(0, 1099)] [5, 6]).input = 5 :: [6]) ∧
    (Fetches (at_ (-1) 0 [(0, 1099)] []) 0 (BitVec.ofNat Config.wordBits (1000 + 99)) ∧
      (at_ (-1) 0 [(0, 1099)] []).input = []) :=
  ⟨by decide, ⟨by decide, rfl⟩, ⟨⟨rfl, by decide, by decide, by decide⟩, rfl⟩⟩

/-- STORE, LOAD and their round trip: canonical memory and an address, at both ends. -/
theorem witness_StoreWritesTheAccumulator :
    0 < Config.memSize ∧ 99 < Config.memSize ∧ (at_ 0 8 [(0, 2199), (99, 3)] []).mem.wf := by decide

theorem witness_LoadAndStoreRoundTrip : 99 < Config.memSize ∧ (at_ 0 8 [(99, 3)] []).mem.wf := by decide

/-- WRITE, LOAD, ADD, SUBTRACT, MULTIPLY, BRANCH, HALT need an address only. -/
theorem witness_addresses : 0 < Config.memSize ∧ 99 < Config.memSize := by decide

/-- DIVIDE: a divisor that is not zero (the overflowing quotient among them), and a zero one. -/
theorem witness_DivideTruncatesOrFaults :
    (at_ 0 (-2147483648) [(99, -1)] []).mem.read 99 ≠ 0 ∧
    Fetches (at_ (-1) 0 [(0, 3299)] []) 0 (BitVec.ofNat Config.wordBits (3200 + 99)) ∧
    (at_ (-1) 0 [(0, 3299)] []).mem.read 99 = 0 :=
  ⟨by decide, ⟨rfl, by decide, by decide, by decide⟩, by decide⟩

theorem witness_BranchnegTestsTheSign :
    (at_ 0 (-1) [] []).acc.toInt < 0 ∧ 0 ≤ (at_ 0 0 [] []).acc.toInt := by decide

theorem witness_BranchzeroTestsForZero :
    (at_ 0 0 [] []).acc.toInt = 0 ∧ (at_ 0 1 [] []).acc.toInt ≠ 0 := by decide

/-- R165: each row, at the first and at the last address. -/
theorem witness_BranchSummaryHolds :
    Fetches (at_ (-1) 0 [(0, 4099)] []) 0 (BitVec.ofNat Config.wordBits (4000 + 99)) ∧
    Fetches (at_ 98 (-1) [(99, 4100)] []) 99 (BitVec.ofNat Config.wordBits (4100 + 0)) ∧
    Fetches (at_ 98 1 [(99, 4200)] []) 99 (BitVec.ofNat Config.wordBits (4200 + 0)) ∧
    Fetches (at_ 98 1 [(99, 4300)] []) 99 (BitVec.ofNat Config.wordBits (4300 + 0)) :=
  ⟨⟨rfl, by decide, by decide, by decide⟩, ⟨rfl, by decide, by decide, by decide⟩,
   ⟨rfl, by decide, by decide, by decide⟩, ⟨rfl, by decide, by decide, by decide⟩⟩

theorem witness_HandlersWriteOnlyTheirTargets :
    (Instr.store 99).WellFormed ∧ (at_ 0 8 [(5, 1)] []).mem.wf ∧ ∃ t, exec (.store 99) (at_ 0 8 [(5, 1)] []) = .next t :=
  ⟨by decide, by decide, _, rfl⟩

theorem witness_OperandPastMemoryFaults :
    Config.memSize ≤ (Instr.read 100).operand ∧ (Instr.read 100).opcode ∈ [10, 11, 20, 21, 30, 31, 32, 33] ∧
    inputReady (.read 100) (at_ 0 0 [] [5]) = true := by decide

theorem witness_widths : 0 < 16 ∧ 0 < Config.wordBits ∧ (5 : BitVec 16) ≠ 0 := by decide

theorem witness_DivisionRoundsTowardZero :
    (-1 : Word) ≠ 0 ∧ (BitVec.intMin Config.wordBits).toInt = wmin Config.wordBits ∧ (-1 : Word).toInt = -1 := by
  decide

theorem witness_OnlyReadAndStoreWriteMemory :
    (at_ (-1) 8 [(0, 2199)] []).mem.wf ∧ (at_ (-1) 8 [(0, 2199)] []).state = .running ∧
    ∃ t, step (at_ (-1) 8 [(0, 2199)] []) = .next t ∧ t.mem.read 99 ≠ (at_ (-1) 8 [(0, 2199)] []).mem.read 99 :=
  ⟨by decide, rfl, _, rfl, by decide⟩

/-- STORE to the next address, and READ to the instruction's own. -/
theorem witness_FetchSeesTheLatestWrite :
    ((at_ (-1) 8 [(0, 2101)] []).mem.wf ∧ Fetches (at_ (-1) 8 [(0, 2101)] []) 0 2101 ∧
      decode (2101 : Word) = .instr (.store 1)) ∧
    ((at_ (-1) 8 [(0, 1000)] [4300]).mem.wf ∧ Fetches (at_ (-1) 8 [(0, 1000)] [4300]) 0 1000 ∧
      decode (1000 : Word) = .instr (.read 0) ∧ (at_ (-1) 8 [(0, 1000)] [4300]).input = 4300 :: []) :=
  ⟨⟨by decide, ⟨rfl, by decide, by decide, by decide⟩, by decide⟩,
   ⟨by decide, ⟨rfl, by decide, by decide, by decide⟩, by decide, rfl⟩⟩

theorem witness_TransfersFollowExecutionOrder :
    ∃ t, step (at_ (-1) 0 [(0, 1007)] [5]) = .next t ∧ t.inHist ≠ (at_ (-1) 0 [(0, 1007)] [5]).inHist :=
  ⟨_, rfl, by decide⟩

/-- The last clause needs a state that already holds the fault, since no cycle of a run raises it. -/
theorem witness_ArbiterChecksEveryAddress :
    ((0 : Int) ≤ 99 ∧ (99 : Int) < Config.memSize) ∧ ((-1 : Int) < 0) ∧ ((Config.memSize : Int) ≤ 100) ∧
    ∃ t, step { at_ (-1) 0 [(0, 2007)] [] with fault := some (.addressOutOfRange 100) } = .next t ∧
      t.fault = some (.addressOutOfRange 100) :=
  ⟨by decide, by decide, by decide, _, rfl, by decide⟩

theorem witness_RunResetsRegistersAndLoads :
    (at_ 0 0 [(5, 1)] []).mem.wf ∧ ([] : List Word).length ≤ Config.memSize ∧
    (List.replicate 100 (4300 : Word)).length ≤ Config.memSize := by decide

/-- Each command, and a program of 100 and of 101 Words. -/
theorem witness_HostCommandsAreServed :
    State.reset.state ≠ .running ∧ (State.reset.issue .powerOn).commands = .powerOn :: [] ∧
    (State.reset.issue (.validate [5])).commands = .validate [5] :: [] ∧
    (State.reset.issue (.run (List.replicate 101 4300))).commands = .run (List.replicate 101 4300) :: [] ∧
    Config.memSize < (List.replicate 101 (4300 : Word)).length ∧
    (List.replicate 100 (4300 : Word)).length ≤ Config.memSize ∧ State.reset.commands = [] :=
  ⟨by decide, rfl, rfl, rfl, by decide, by decide, rfl⟩

theorem witness_ValidateReportsTheFirstFailure :
    Config.ReservedDisjoint [34] ∧ ([1007, 0, 9900] : List Word).length ≤ Config.memSize ∧
    ([1007, 0, 9900] : List Word) = [1007] ++ 0 :: [9900] ∧
    (∀ x ∈ ([1007] : List Word), x.toInt.tdiv 100 ∈ Config.implementedOpcodes) ∧
    ((3400 : Word).toInt ≠ 0 ∧ (3400 : Word).toInt.tdiv 100 ∈ ([34] : List Int)) ∧
    ((9900 : Word).toInt.tdiv 100 ∉ Config.implementedOpcodes ∧ (9900 : Word).toInt.tdiv 100 ∉ ([34] : List Int)) :=
  ⟨by unfold Config.ReservedDisjoint; decide, by decide, rfl,
    fun x h => by rw [List.mem_singleton.mp h]; decide, by decide, by decide⟩

theorem witness_ReservedSetOnlyNamesErrors :
    decodeWith [34] (1007 : Word) = .instr (.read 7) ∧ validated [34] [1007] = .ok ∧
    validated [34] (List.replicate 101 0) = .programTooLarge ∧ validated [34] [0] = .invalidInstructionZero ∧
    validated [34] [3500] = .unknownOpcode 35 := by decide

theorem witness_ValidatedWordsRaiseNoLookupFault :
    validated [34] [1007, 4300] = .ok ∧ State.reset.mem.wf ∧ (1 < ([1007, 4300] : List Word).length) ∧
    Fetches (at_ 0 0 [(0, 1007), (1, 4300)] []) 1 4300 ∧ (at_ 0 0 [(0, 1007), (1, 4300)] []).fault = none ∧
    ∃ t, step (at_ 0 0 [(0, 1007), (1, 4300)] []) = .next t :=
  ⟨by decide, Memory.wf_nil, by decide, ⟨rfl, by decide, by decide, by decide⟩, rfl, _, rfl⟩

/-- A cycle of each end. -/
theorem witness_RunGivesBackItsEnd :
    (∃ t, step (at_ (-1) 0 [(0, 4000)] []) = .next t ∧ t.state = .running) ∧
    (∃ t, step (at_ 99 0 [] []) = .next t ∧ t.state = .halted) ∧
    (∃ t, step (at_ (-1) 0 [] []) = .next t ∧ t.state = .faulted) :=
  ⟨⟨_, rfl, by decide⟩, ⟨_, rfl, by decide⟩, ⟨_, rfl, by decide⟩⟩

/-- Both ways to Halted. -/
theorem witness_OpcodeTellsHaltFromEndOfMemory :
    (EngineInv (at_ 98 0 [(99, 4300)] []) ∧ ∃ t, step (at_ 98 0 [(99, 4300)] []) = .next t ∧ t.state = .halted) ∧
    (EngineInv (at_ 99 0 [] []) ∧ ∃ t, step (at_ 99 0 [] []) = .next t ∧ t.state = .halted) :=
  ⟨⟨inv_at (by decide) (by decide), _, rfl, by decide⟩, ⟨inv_at Memory.wf_nil (by decide), _, rfl, by decide⟩⟩

theorem witness_StoppedEngineKeepsEverything : State.reset.state ≠ .running ∧ State.reset.commands = [] := by decide

theorem witness_SnapshotShowsTheStoppedEngine :
    (at_ 0 0 [] []).state = .running ∧ State.reset.state ≠ .running ∧ 99 < Config.memSize := by decide

/-- A READ with no input, on a Halted engine: the placed Word still runs next. -/
theorem witness_PlacedWordRunsNext :
    (at_ 100 0 [] []).enterHalted.mem.wf ∧ decodeTableWord 32 1007 = some (.read 7) := by decide

/-- The invariant of a Running, a Halted and a Faulted engine. -/
theorem witness_StepKeepsEngineInvariant :
    (EngineInv (at_ 99 0 [(99, 2000)] []) ∧ ∃ t, step (at_ 99 0 [(99, 2000)] []) = .next t) ∧
    EngineInv ((at_ 100 0 [] []).enterHalted) ∧
    EngineInv (((at_ 1 42 [(2, 3211)] []).latch 2 3211).enterFaulted (.divisionByZero 11)) :=
  ⟨⟨inv_at (by decide) (by decide), _, rfl⟩,
   EngineInv.of_halted Memory.wf_nil (by decide) (by decide) rfl rfl rfl,
   EngineInv.of_faulted (by decide) rfl rfl rfl rfl (by decide) (by decide) ⟨by decide, by decide, by decide⟩⟩

theorem witness_OutsideMovesKeepEngineInvariant : EngineInv (at_ (-1) 0 [] []) := inv_at Memory.wf_nil (by decide)

theorem witness_RunsStayInTheInvariant : EngineInv (at_ (-1) 0 [(0, 4000)] []) := inv_at (by decide) (by decide)

/-! ### Other configurations: the least width (R6), another overflowing quotient (R144) -/

/-- The configuration of the least width. -/
abbrev least : Config.Parameters where
  wordBits := 16
  wordBits_ge := by decide
  reserved_disjoint := fun _ h => by cases h

/-- 32 bits, 0 for `WMIN / -1`, and 34 reserved. -/
abbrev other : Config.Parameters where
  wordBits := 32
  wordBits_ge := by decide
  quotientOverflow := 0
  reservedOpcodes := [34]
  reserved_disjoint := by unfold Config.ReservedDisjoint; decide

/-- 32 bits, 0 for `WMIN / -1`, and nothing reserved. -/
abbrev wide : Config.Parameters := { other with reservedOpcodes := [], reserved_disjoint := fun _ h => by cases h }

/-- A Running 16-bit engine about to fetch from `c + 1`. -/
def small (c : Int) (acc : Word 16) (mem : Memory 16) (input : List (Word 16)) : State least :=
  { State.fresh least with state := .running, counter := c, acc := acc, mem := mem, input := input }

/-- R9 at 16 bits: 32767 + 1 is -32768, and -32768 / -1 is -32768 (log 3). -/
theorem test_small_wraps :
    (∃ t, stepAt (small (-1) 32767 [(0, 3020), (20, 1)] []) = .next t ∧ t.acc = -32768) ∧
    ∃ t, stepAt (small (-1) (-32768) [(0, 3220), (20, -1)] []) = .next t ∧ t.acc = -32768 :=
  ⟨⟨_, rfl, by decide⟩, _, rfl, by decide⟩

/-- R144 (b), U4: `WMIN / -1` gives the Word of the configuration and no fault, and its neighbours do not. -/
theorem test_configured_quotient :
    (∃ t, execute (.divide 20) { State.fresh other with acc := -2147483648, mem := [(20, -1)] } = .next t ∧
      t.acc = 0 ∧ t.state = .ready) ∧
    (∃ t, execute (.divide 20) { State.fresh other with acc := -2147483647, mem := [(20, -1)] } = .next t ∧
      t.acc = 2147483647) ∧
    Config.hardware.quotientOverflow = -2147483648 ∧ least.quotientOverflow = -32768 :=
  ⟨⟨_, rfl, by decide⟩, ⟨_, rfl, by decide⟩, by decide⟩

/-- R7, U5: `Validate` names a reserved opcode by the configuration. -/
theorem test_configured_reserved :
    ∃ t, stepAt ((State.fresh other).issue (.validate [3400])) = .next t ∧
      t.result = some (.validated (.unimplementedOpcode 34)) := ⟨_, rfl, by decide⟩

/-- R80 at 16 bits: 4399 is HALT, and 32767 has the absent opcode 327. -/
theorem test_small_decodes : decodeWith [] (4399 : Word 16) = .instr (.halt 99) ∧
    decodeWith [] (32767 : Word 16) = .rejected .absent 327 ∧ encode (.store 99) 16 = 2199 := by decide

/-- The same Words at the two widths are the same values, and a wider engine holds them. -/
theorem test_widen : (small 0 (-5) [(3, -1)] [7]).widen Config.hardware = at_ 0 (-5) [(3, -1)] [7] := by decide

theorem witness_EveryWidthDecodesItsEncodings :
    decodeWith [] (1007 : Word least.wordBits) = .instr (.read 7) ∧ (Instr.read 7).WellFormed ∧
    encode (.read 7) least.wordBits = 1007 := by decide

/-- An instruction, an opcode without a handler, and the end of memory. -/
theorem witness_EveryWidthRunsTheFetchedWord :
    (Fetches (small (-1) 0 [(0, 1007)] [5]) 0 1007 ∧ decodeWith least.reservedOpcodes (1007 : Word 16) = .instr (.read 7) ∧
      inputReady (.read 7) (small (-1) 0 [(0, 1007)] [5]) = true) ∧
    (Fetches (small 98 0 [(99, -5)] []) 99 (-5) ∧ (-5 : Word 16).toInt.tdiv 100 ∉ Config.implementedOpcodes) ∧
    ((small 99 0 [] []).state = .running ∧ (Config.memSize : Int) ≤ (small 99 0 [] []).counter + 1) :=
  ⟨⟨⟨rfl, by decide, by decide, by decide⟩, by decide, by decide⟩,
   ⟨⟨rfl, by decide, by decide, by decide⟩, by decide⟩, rfl, by decide⟩

/-- Input, and a divisor that is not zero, one that is, and `WMIN / -1`. -/
theorem witness_EveryWidthRunsTheTwelve :
    0 < Config.memSize ∧ 99 < Config.memSize ∧ (small 0 8 [(99, 3)] [5]).mem.wf ∧
    (small 0 8 [(99, 3)] [5]).input = 5 :: [] ∧ (small 0 8 [(99, 3)] [5]).mem.read 99 ≠ 0 ∧
    (small 0 8 [(99, 3)] [5]).mem.read 0 = 0 ∧
    ((small 0 (-32768) [(99, -1)] []).acc.toInt = wmin least.wordBits ∧
      ((small 0 (-32768) [(99, -1)] []).mem.read 99).toInt = -1) := by decide

theorem witness_EveryWidthKeepsEngineInvariant : EngineInv (small (-1) 0 [(0, 4000)] []) :=
  EngineInv.of_running (by decide) (by decide) (by decide) rfl rfl (by decide) (by decide) rfl

/-- An ADD whose sum is the greatest 16-bit Word. -/
theorem witness_next_without_wrap : NextWithoutWrap (small (-1) 32766 [(0, 3020), (20, 1)] []) := by
  intro c w i hf hd
  obtain ⟨-, hc, -, hw⟩ := hf
  have hc : (-1 : Int) + 1 = c := hc
  obtain rfl : c = 0 := by omega
  subst hw
  have e : decodeWith least.reservedOpcodes ((small (-1) 32766 [(0, 3020), (20, 1)] []).mem.read 0) = .instr (.add 20) := by decide
  rw [e] at hd
  cases hd
  exact ⟨by decide, by decide⟩

theorem witness_WiderStepsAgreeUntilAWrap :
    least.wordBits ≤ wide.wordBits ∧ wide.reservedOpcodes = least.reservedOpcodes ∧ NextWithoutWrap (small (-1) 32766 [(0, 3020), (20, 1)] []) ∧
    ∃ t, stepAt (small (-1) 32766 [(0, 3020), (20, 1)] []) = .next t :=
  ⟨by decide, rfl, witness_next_without_wrap, _, rfl⟩

theorem witness_WiderRunsAgreeUntilAWrap :
    least.wordBits ≤ wide.wordBits ∧ wide.reservedOpcodes = least.reservedOpcodes ∧
    (∀ (j : Nat) (u : State least), j < 1 →
      Host.Core.run (engine least) j (small (-1) 32766 [(0, 3020), (20, 1)] []) = .next u → NextWithoutWrap u) ∧
    ∃ t, Host.Core.run (engine least) 1 (small (-1) 32766 [(0, 3020), (20, 1)] []) = .next t := by
  refine ⟨by decide, rfl, fun j u hj hu => ?_, _, rfl⟩
  obtain rfl : j = 0 := by omega
  cases hu
  exact witness_next_without_wrap

/-- Each clause: a zero divisor under a zero dividend, the overflowing quotient, and its neighbour. -/
theorem witness_DivisionCornerCases :
    (small 0 0 [] []).mem.read 99 = 0 ∧
    ((small 0 (-32768) [(99, -1)] []).acc.toInt = wmin least.wordBits ∧
      ((small 0 (-32768) [(99, -1)] []).mem.read 99).toInt = -1) ∧
    ((small 0 (-32767) [(99, -1)] []).mem.read 99 ≠ 0 ∧
      ¬((small 0 (-32767) [(99, -1)] []).acc.toInt = wmin least.wordBits ∧
        ((small 0 (-32767) [(99, -1)] []).mem.read 99).toInt = -1)) := by decide

end Sys2Proof.Tests
end

section
/-! ## Facts about the decoder and the state that several obligations use -/

namespace Sys2Proof

variable {n : Nat}

/-- An instruction is its opcode and its operand. -/
theorem Instr.ext_of_opcode {i j : Instr} (hk : i.opcode = j.opcode) (ha : i.operand = j.operand) : i = j := by
  obtain ⟨g, hi, hg⟩ := callable_opcode i
  obtain ⟨h, hj, hh⟩ := callable_opcode j
  have : g = h := by simpa [hk, hh] using hg.symm
  rw [hi, hj, this, ha]

theorem Instr.opcode_bounds (i : Instr) : 10 ≤ i.opcode ∧ i.opcode ≤ 43 := by
  have := opcode_mem i
  simp only [Config.implementedOpcodes, List.mem_cons, List.not_mem_nil, or_false] at this
  omega

/-- The two fields of a Word that decodes to an instruction (R83, R85). -/
theorem fields_of_decodeWith {reserved : List Int} {w : Word n} {i : Instr} (h : decodeWith reserved w = .instr i) :
    (Machine.Alu.div100 w).toInt = i.opcode ∧ (Machine.Alu.mod100 w).toInt = i.operand ∧ i.WellFormed := by
  obtain ⟨hk, ha⟩ := decodeWith_eq_instr h
  obtain ⟨hsum, hpos, hneg⟩ := Machine.Alu.split_by_100 w.toInt
  have hb := i.opcode_bounds
  rw [Machine.Alu.div100_toInt, Machine.Alu.mod100_toInt]
  refine ⟨hk.symm, by omega, ?_⟩
  show i.operand < 100
  omega

end Sys2Proof

namespace Sys2Proof.Machine

variable {cfg : Config.Parameters}

/-- A handler that reads a Word answers next when it does so with every Word and on the arbiter's fault. -/
theorem memRead_answers {a : Int} {s : State cfg} {k : Word cfg.wordBits → Result cfg}
    (hk : ∀ v, ∃ t, k v = .next t) : ∃ t, memRead a s k = .next t := by
  unfold memRead
  split
  · exact hk _
  · exact ⟨_, rfl⟩

theorem memWrite_answers {a : Int} {v : Word cfg.wordBits} {s : State cfg} {k : Memory cfg.wordBits → Result cfg}
    (hk : ∀ m, ∃ t, k m = .next t) : ∃ t, memWrite a v s k = .next t := by
  unfold memWrite
  split
  · exact hk _
  · exact ⟨_, rfl⟩

/-- Every instruction answers a next state, well formed or not (R105; logs 11 and 13). -/
theorem execute_answers (i : Instr) (s : State cfg) : ∃ t, execute i s = .next t := by
  cases i with
  | read a =>
    cases hin : s.input with
    | nil => exact ⟨s, execRead_waits hin⟩
    | cons v rest =>
      rw [execute, execRead, hin]
      exact memWrite_answers fun m => ⟨_, rfl⟩
  | write a => exact memRead_answers fun v => ⟨_, rfl⟩
  | load a => exact memRead_answers fun v => ⟨_, rfl⟩
  | store a => exact memWrite_answers fun m => ⟨_, rfl⟩
  | add a => exact memRead_answers fun v => ⟨_, rfl⟩
  | subtract a => exact memRead_answers fun v => ⟨_, rfl⟩
  | divide a =>
    rw [execute, execDivide]
    refine memRead_answers fun d => ?_
    cases isZero d
    · exact ⟨_, rfl⟩
    · exact ⟨_, rfl⟩
  | multiply a => exact memRead_answers fun v => ⟨_, rfl⟩
  | branch a => exact ⟨_, rfl⟩
  | branchneg a =>
    rcases lt_or_ge s.acc.toInt 0 with hn | hn
    · exact ⟨_, execBranchneg_taken hn⟩
    · exact ⟨_, execBranchneg_not_taken hn⟩
  | branchzero a =>
    by_cases hz : s.acc = 0
    · exact ⟨_, execBranchzero_taken hz⟩
    · exact ⟨_, execBranchzero_not_taken hz⟩
  | halt a => exact ⟨_, rfl⟩

end Sys2Proof.Machine
end

section
/-! ## The invariant of every reachable engine (R37), in every configuration -/

namespace Sys2Proof.Machine

variable {cfg : Config.Parameters} {s t : State cfg}

/-- PowerOn leaves a fresh engine (R181), and the invariant says nothing of what stands on its interfaces. -/
theorem EngineInv.of_powerOn (s : State cfg) : EngineInv (powerOn s) where
  memory_canonical := Memory.wf_nil
  opCode_decoded := by simp [powerOn]
  operand_decoded := by simp [powerOn]
  faulted_iff := by simp [powerOn]
  ready_fresh := by simp [powerOn]
  running_counter := by simp [powerOn]
  running_opCode := by simp [powerOn]
  running_result := by simp [powerOn]
  halted_counter := by simp [powerOn]
  faulted_explained := by simp [powerOn]

theorem EngineInv.of_fresh : EngineInv (State.fresh cfg) := EngineInv.of_powerOn (State.fresh cfg)

/-- What the host has issued is none of the invariant. -/
theorem EngineInv.withCommands (h : EngineInv s) (cs : List (Command cfg.wordBits)) :
    EngineInv { s with commands := cs } :=
  ⟨h.memory_canonical, h.opCode_decoded, h.operand_decoded, h.faulted_iff, h.ready_fresh, h.running_counter,
    h.running_opCode, h.running_result, h.halted_counter, h.faulted_explained⟩

/-- An engine that is not Running may give anything back. -/
theorem EngineInv.giveBack (h : EngineInv s) (hs : s.state ≠ .running) (r : CommandResult) :
    EngineInv (s.giveBack r) :=
  ⟨h.memory_canonical, h.opCode_decoded, h.operand_decoded, h.faulted_iff, h.ready_fresh, h.running_counter,
    h.running_opCode, fun hr => absurd hr hs, h.halted_counter, h.faulted_explained⟩

/-- The start of a run (R242): the load keeps memory canonical, and everything else is at its reset value. -/
theorem EngineInv.of_startRun (h : EngineInv s) {p : List (Word cfg.wordBits)} (hp : startRun p s = .ok t) :
    EngineInv t := by
  unfold startRun at hp
  split at hp
  · cases hp
  next hlen =>
    cases hp
    exact .of_running (Memory.wf_load h.memory_canonical p (by omega)) (by simp [Alu.div100, Alu.wrap])
      (by simp [Alu.mod100, Alu.wrap]) rfl rfl ⟨le_rfl, (by decide : (-1 : Int) < 100)⟩ (by simp) rfl

theorem serveCommand_keeps_inv (h : EngineInv s) (hs : s.state ≠ .running) (c : Command cfg.wordBits) :
    ∃ t, serveCommand c s = .next t ∧ EngineInv t := by
  cases c with
  | powerOn => exact ⟨_, rfl, .of_powerOn s⟩
  | validate p => exact ⟨_, rfl, h.giveBack hs _⟩
  | run p =>
    rw [serveCommand]
    cases hp : startRun p s with
    | ok t => exact ⟨t, rfl, h.of_startRun hp⟩
    | error r => exact ⟨_, rfl, h.giveBack hs _⟩

theorem serveHost_keeps_inv (h : EngineInv s) (hs : s.state ≠ .running) :
    ∃ t, serveHost s = .next t ∧ EngineInv t := by
  cases hc : s.commands with
  | nil => exact ⟨s, serveHost_nil hc, h⟩
  | cons c cs =>
    rw [serveHost_cons hc]
    exact serveCommand_keeps_inv (h.withCommands cs) hs c

/-- A Running engine has no fault (R31). -/
theorem EngineInv.fault_eq_none (h : EngineInv s) (hs : s.state = .running) : s.fault = none := by
  by_contra hf
  exact absurd (h.faulted_iff.2 hf) (by simp [hs])

/-- A fetched instruction keeps the invariant: it goes on with a counter from -1 to 99 and its own opcode, which is
not HALT's; or it is a DIVIDE by zero, which faults; or it is a HALT. -/
theorem EngineInv.of_execute_latch (h : EngineInv s) {c : Nat} {w : Word cfg.wordBits} {i : Instr}
    (hf : Fetches s c w) (hd : decodeWith cfg.reservedOpcodes w = .instr i)
    (he : execute i (s.latch c w) = .next t) : EngineInv t := by
  obtain ⟨hs, -, hc, hw⟩ := hf
  obtain ⟨hk, ha, hwf⟩ := fields_of_decodeWith hd
  have hm := h.memory_canonical
  have hn := h.fault_eq_none hs
  have hr := h.running_result hs
  have hc' : -1 ≤ (c : Int) ∧ (c : Int) < 100 := ⟨by omega, by exact_mod_cast hc⟩
  have hop : (i.operand : Int) < 100 := by exact_mod_cast hwf
  have hj : -1 ≤ (i.operand : Int) - 1 ∧ (i.operand : Int) - 1 < 100 := ⟨by omega, by omega⟩
  have goesOn : i.opcode ≠ 43 → (s.latch c w).opCode.toInt ≠ 43 := fun h43 => by
    rwa [State.latch_opCode, hk]
  rcases execute_cases hwf he with ⟨rfl, hi⟩ | ⟨hi, v, rest, -, rfl⟩ | ⟨hi, rfl⟩ | ⟨hi, rfl⟩ | ⟨hi, v, rfl⟩ |
    ⟨hi, hz, rfl⟩ | ⟨hi, rfl⟩ | ⟨hi, rfl⟩
  · exact .of_running hm rfl rfl hs hn hc' (goesOn (by omega)) hr
  · exact .of_running (Memory.wf_write hm hwf v) rfl rfl hs hn hc' (goesOn (by rw [hi]; simp [Instr.opcode])) hr
  · exact .of_running hm rfl rfl hs hn hc' (goesOn (by rw [hi]; simp [Instr.opcode])) hr
  · exact .of_running (Memory.wf_write hm hwf _) rfl rfl hs hn hc' (goesOn (by rw [hi]; simp [Instr.opcode])) hr
  · exact .of_running hm rfl rfl hs hn hc' (goesOn (by simp at hi; omega)) hr
  · exact .of_faulted hm rfl rfl rfl rfl ⟨by simp, by simpa using hc'.2⟩ (by simpa using hw.symm)
      ⟨by rw [State.enterFaulted_opCode, State.latch_opCode, hk, hi]; rfl, ha, hz⟩
  · exact .of_running hm rfl rfl hs hn hj (goesOn (by simp at hi; omega)) hr
  · exact .of_halted hm (Alu.div100_toInt w) (Alu.mod100_toInt w) rfl hn rfl

/-- A cycle of a Running engine keeps the invariant; below the address space, where the arbiter would fault, no
counter of the invariant stands (R25, R56). -/
theorem cycle_keeps_inv (h : EngineInv s) (hs : s.state = .running) :
    ∃ t, cycle execute s = .next t ∧ EngineInv t := by
  obtain ⟨hlo, hhi⟩ := h.running_counter hs
  rcases cycle_cases execute s with ⟨hend, e⟩ | ⟨hbelow, -⟩ |
    ⟨c, hc, hcc, ⟨r, k, hd, e⟩ | ⟨a, -, -, e⟩ | ⟨i, hd, -, e⟩⟩
  · have hend : (100 : Int) ≤ s.counter + 1 := hend
    have hhi : s.counter < 100 := hhi
    exact ⟨_, e, .of_halted h.memory_canonical h.opCode_decoded h.operand_decoded rfl (h.fault_eq_none hs)
      (by simp only [State.enterHalted_counter, State.setCounter_counter]; omega)⟩
  · omega
  · obtain ⟨rfl, hk⟩ := not_mem_of_rejected hd
    exact ⟨_, e, .of_faulted h.memory_canonical rfl rfl rfl rfl ⟨by simp, by simpa using hc⟩ (by simp)
      ⟨rfl, by rwa [Alu.div100_toInt]⟩⟩
  · exact ⟨s, e, h⟩
  · obtain ⟨t, ht⟩ := execute_answers i (s.latch c (s.mem.read c))
    exact ⟨t, e.trans ht, h.of_execute_latch ⟨hs, hcc, hc, rfl⟩ hd ht⟩

/-- The step lemma: every step of an engine that meets the invariant answers a next state that meets it. -/
theorem stepAt_keeps_inv (h : EngineInv s) : ∃ t, stepAt s = .next t ∧ EngineInv t := by
  by_cases hs : s.state = .running
  · rw [stepAt_running hs]
    exact cycle_keeps_inv h hs
  · rw [stepAt_not_running hs]
    exact serveHost_keeps_inv h hs

/-- Settles O57: the fresh engine is what PowerOn leaves, and a step is a host command or a cycle. -/
theorem everyWidthKeepsEngineInvariant : Obligations.EveryWidthKeepsEngineInvariant :=
  fun _ => ⟨EngineInv.of_fresh, fun _ h => stepAt_keeps_inv h⟩

end Sys2Proof.Machine
end

section
/-! ## The ALU (R9, R10, R143, R144), at every width -/

namespace Sys2Proof.Machine.Alu

variable {n : Nat}

theorem toInt_eq_zero_iff (w : BitVec n) : w.toInt = 0 ↔ w = 0 := by
  rw [← BitVec.toInt_inj, ← BitVec.toInt_zero (w := n)]
  rfl

/-- Congruent integers wrap to one Word. -/
theorem wrap_eq_wrap_of_dvd {v x : Int} (h : (2 ^ n : Int) ∣ v - x) : wrap n v = wrap n x := by
  apply BitVec.eq_of_toInt_eq
  rw [toInt_wrap, toInt_wrap, Int.bmod_eq_bmod_iff_bmod_sub_eq_zero]
  exact Int.bmod_eq_zero_of_dvd (by exact_mod_cast h)

/-- A Word's value congruent to `v` is that of `wrap(v)`. -/
theorem eq_toInt_wrap_of_dvd (hn : 0 < n) {v x : Int} (hlo : wmin n ≤ x) (hhi : x ≤ wmax n)
    (h : (2 ^ n : Int) ∣ v - x) : x = (wrap n v).toInt := by
  rw [wrap_eq_wrap_of_dvd h, toInt_wrap_of_range hn hlo hhi]

theorem dvd_sub_toInt_wrap (n : Nat) (v : Int) : (2 ^ n : Int) ∣ v - (wrap n v).toInt := by
  rw [toInt_wrap]
  exact_mod_cast Int.dvd_self_sub_bmod (x := v) (m := 2 ^ n)

/-- The formula of R9 names a Word congruent to its argument. -/
theorem wrapsTo_wrap (hn : 0 < n) (v : Int) : WrapsTo (wrap n v) v := by
  have hpos : (0 : Int) < 2 ^ n := by positivity
  have hlo := Int.emod_nonneg (v - wmin n) hpos.ne'
  have hhi := Int.emod_lt_of_pos (v - wmin n) hpos
  have hw : (2 ^ n : Int) = wmax n - wmin n + 1 := by exact_mod_cast two_pow_eq hn
  refine (eq_toInt_wrap_of_dvd hn (by omega) (by omega) ?_).symm
  rw [show v - ((v - wmin n) % 2 ^ n + wmin n) = v - wmin n - (v - wmin n) % 2 ^ n by ring]
  exact Int.dvd_self_sub_emod

/-- The formula of R10 is the truncating division. -/
theorem truncatedQuotient_eq_tdiv (a b : Int) : truncatedQuotient a b = a.tdiv b := by
  rw [← Int.sign_mul_natAbs (a.tdiv b), Int.sign_tdiv, Int.natAbs_tdiv, truncatedQuotient]
  split
  next h => rw [Nat.div_eq_of_lt h]; simp
  next => rfl

/-- The quotient of two Words is a Word, but for `WMIN / -1` (R144). -/
theorem isWord_tdiv (hn : 0 < n) (a b : BitVec n) (h : ¬(a.toInt = wmin n ∧ b.toInt = -1)) :
    IsWord n (a.toInt.tdiv b.toInt) := by
  obtain ⟨hlo, hhi⟩ := toInt_bounds hn a
  have hle := Int.natAbs_tdiv_le_natAbs a.toInt b.toInt
  unfold IsWord wmin wmax at *
  by_cases hq : a.toInt.tdiv b.toInt = 2 ^ (n - 1)
  · -- only `WMIN` is as large as this quotient, and only -1 divides it so
    exfalso
    have hpos : (0 : Int) < 2 ^ (n - 1) := by positivity
    have ha : a.toInt = -2 ^ (n - 1) := by omega
    have hd : a.toInt.natAbs / b.toInt.natAbs = a.toInt.natAbs := by
      have : (2 ^ (n - 1) : Int).natAbs = a.toInt.natAbs / b.toInt.natAbs := hq ▸ Int.natAbs_tdiv a.toInt b.toInt
      omega
    rcases Nat.div_eq_self.1 hd with h0 | h1
    · omega
    · rcases Int.natAbs_eq_iff.1 h1 with hb | hb
      · rw [hb, Nat.cast_one, Int.tdiv_one] at hq
        omega
      · exact h ⟨ha, hb⟩
  · omega

/-- DIV on every pair but the overflowing one: the truncated quotient, wrapped. -/
theorem div_eq_wrap {a b : BitVec n} (h : ¬(a.toInt = wmin n ∧ b.toInt = -1)) (o : BitVec n) :
    div a b o = wrap n (a.toInt.tdiv b.toInt) := if_neg h

/-- DIV on the overflowing pair: the Word of the configuration (R144 (b)). -/
theorem div_overflow {a b : BitVec n} (ha : a.toInt = wmin n) (hb : b.toInt = -1) (o : BitVec n) :
    div a b o = o := if_pos ⟨ha, hb⟩

/-- DIV is exact but for the overflowing pair (R144 (c)). -/
theorem toInt_div (hn : 0 < n) {a b : BitVec n} (h : ¬(a.toInt = wmin n ∧ b.toInt = -1)) (o : BitVec n) :
    (div a b o).toInt = a.toInt.tdiv b.toInt := by
  obtain ⟨hlo, hhi⟩ := isWord_tdiv hn a b h
  rw [div_eq_wrap h, toInt_wrap_of_range hn hlo hhi]

theorem toInt_quotientOverflow (hn : 0 < n) : (Config.quotientOverflow n).toInt = wmin n :=
  BitVec.toInt_intMin_of_pos hn

end Sys2Proof.Machine.Alu

namespace Sys2Proof.Machine

/-- Settles O31: each clause is one lemma on `wrap`. -/
theorem wrapIsTheCongruentWord : Obligations.WrapIsTheCongruentWord := fun n v hn =>
  have ⟨hlo, hhi⟩ := Alu.toInt_bounds hn (Alu.wrap n v)
  ⟨Alu.wrapsTo_wrap hn v, hlo, hhi, Alu.dvd_sub_toInt_wrap n v,
    fun _ h1 h2 hd => Alu.eq_toInt_wrap_of_dvd hn h1 h2 hd, Alu.toInt_wrap_of_range hn⟩

/-- Settles O33: DIV is the exact quotient, so what it leaves is the truncating remainder. -/
theorem divisionRoundsTowardZero : Obligations.DivisionRoundsTowardZero := by
  intro n a b hn hb
  have hb0 : b.toInt ≠ 0 := mt (Alu.toInt_eq_zero_iff b).1 hb
  refine ⟨fun h => ?_, fun ⟨ha, hb⟩ => ?_⟩
  · rw [Alu.toInt_div hn h, ← Int.tmod_def, Int.sign_tmod, Int.natAbs_tmod]
    refine ⟨?_, Nat.mod_lt _ (Int.natAbs_pos.2 hb0)⟩
    by_cases hd : b.toInt ∣ a.toInt
    · exact .inl (Int.tmod_eq_zero_of_dvd hd)
    · exact .inr (if_neg hd)
  · rw [Alu.div_overflow ha hb, Alu.toInt_quotientOverflow hn]

end Sys2Proof.Machine
end

section
/-! ## Widening commutes with every operation whose result is a Word (R6)

`Result.widen` carries an answer to the wider engine, so that each operation has one equation: on the widened state it
answers the widened answer. Only the four arithmetic handlers need that nothing wraps. -/

namespace Sys2Proof.Machine

/-! ### Words -/

section Words

variable {n m : Nat}

/-- An integer that is a Word of `n` bits is narrowed to the same value at every width. -/
theorem wrap_eq_widenWord (hn : 0 < n) {v : Int} (h : IsWord n v) : Alu.wrap m v = widenWord m (Alu.wrap n v) := by
  rw [widenWord, Alu.toInt_wrap_of_range hn h.1 h.2]

/-- A quotient that is a Word is not the overflowing one (R144). -/
theorem not_overflow_of_isWord {a b : Word n} (h : IsWord n (a.toInt.tdiv b.toInt)) :
    ¬(a.toInt = wmin n ∧ b.toInt = -1) := by
  rintro ⟨ha, hb⟩
  have hle := h.2
  rw [ha, hb, Int.tdiv_neg, Int.tdiv_one] at hle
  simp only [wmin, wmax] at hle
  omega

variable (hn : 0 < n) (hm : n ≤ m)
include hn hm

theorem widenWord_eq_zero_iff (w : Word n) : widenWord m w = 0 ↔ w = 0 := by
  rw [← widenWord_zero (n := n) m, widenWord_inj hn hm]

theorem isZero_widenWord (w : Word n) : isZero (widenWord m w) = isZero w :=
  decide_eq_decide.2 (widenWord_eq_zero_iff hn hm w)

theorem isNegative_widenWord (w : Word n) : isNegative (widenWord m w) = isNegative w := by
  rw [isNegative, toInt_widenWord hn hm, isNegative]

theorem div100_widenWord (w : Word n) : Alu.div100 (widenWord m w) = widenWord m (Alu.div100 w) := by
  apply BitVec.eq_of_toInt_eq
  rw [Alu.div100_toInt, toInt_widenWord hn hm, toInt_widenWord hn hm, Alu.div100_toInt]

theorem mod100_widenWord (w : Word n) : Alu.mod100 (widenWord m w) = widenWord m (Alu.mod100 w) := by
  apply BitVec.eq_of_toInt_eq
  rw [Alu.mod100_toInt, toInt_widenWord hn hm, toInt_widenWord hn hm, Alu.mod100_toInt]

theorem decodeWith_widenWord (reserved : List Int) (w : Word n) :
    decodeWith reserved (widenWord m w) = decodeWith reserved w := by
  simp only [decodeWith, Alu.div100_toInt, Alu.mod100_toInt, toInt_widenWord hn hm]

theorem add_widenWord {a b : Word n} (h : IsWord n (a.toInt + b.toInt)) :
    Alu.add (widenWord m a) (widenWord m b) = widenWord m (Alu.add a b) := by
  rw [Alu.add, toInt_widenWord hn hm, toInt_widenWord hn hm, wrap_eq_widenWord hn h, Alu.add]

theorem sub_widenWord {a b : Word n} (h : IsWord n (a.toInt - b.toInt)) :
    Alu.sub (widenWord m a) (widenWord m b) = widenWord m (Alu.sub a b) := by
  rw [Alu.sub, toInt_widenWord hn hm, toInt_widenWord hn hm, wrap_eq_widenWord hn h, Alu.sub]

theorem mul_widenWord {a b : Word n} (h : IsWord n (a.toInt * b.toInt)) :
    Alu.mul (widenWord m a) (widenWord m b) = widenWord m (Alu.mul a b) := by
  rw [Alu.mul, toInt_widenWord hn hm, toInt_widenWord hn hm, wrap_eq_widenWord hn h, Alu.mul]

/-- The overflowing pair of a greater width is none at this one: `WMIN` is a Word of both only if they are equal. -/
theorem div_widenWord {a b : Word n} (h : IsWord n (a.toInt.tdiv b.toInt)) (o : Word n) (o' : Word m) :
    Alu.div (widenWord m a) (widenWord m b) o' = widenWord m (Alu.div a b o) := by
  have hno := not_overflow_of_isWord h
  have hno' : ¬((widenWord m a).toInt = wmin m ∧ (widenWord m b).toInt = -1) := by
    rw [toInt_widenWord hn hm, toInt_widenWord hn hm]
    rintro ⟨ha, hb⟩
    have hlo := (Alu.toInt_bounds hn a).1
    have : (2 : Int) ^ (n - 1) ≤ 2 ^ (m - 1) := pow_le_pow_right₀ (by decide) (by omega)
    refine hno ⟨?_, hb⟩
    unfold wmin at *
    omega
  rw [Alu.div_eq_wrap hno', toInt_widenWord hn hm, toInt_widenWord hn hm, wrap_eq_widenWord hn h, Alu.div_eq_wrap hno]

/-! ### Memory -/

theorem Memory.cons_widen (a : Nat) (v : Word n) (M : Memory n) :
    Memory.cons a (widenWord m v) (M.map fun c => (c.1, widenWord m c.2)) =
      (Memory.cons a v M).map fun c => (c.1, widenWord m c.2) := by
  have hz : widenWord m v = Memory.unlisted ↔ v = Memory.unlisted := widenWord_eq_zero_iff hn hm v
  unfold Memory.cons
  by_cases hv : v = Memory.unlisted
  · rw [if_pos (hz.2 hv), if_pos hv]
  · rw [if_neg (mt hz.1 hv), if_neg hv, List.map_cons]

theorem Memory.write_widen (M : Memory n) (a : Nat) (v : Word n) :
    Memory.write (M.map fun c => (c.1, widenWord m c.2)) a (widenWord m v) =
      (M.write a v).map fun c => (c.1, widenWord m c.2) := by
  induction M with
  | nil => exact Memory.cons_widen hn hm a v []
  | cons d M ih =>
    obtain ⟨k, x⟩ := d
    rw [List.map_cons, Memory.write, Memory.write]
    split
    · exact Memory.cons_widen hn hm a v ((k, x) :: M)
    · split
      · exact Memory.cons_widen hn hm a v M
      · rw [ih, List.map_cons]

theorem Memory.load_widen (M : Memory n) (base : Nat) (p : List (Word n)) :
    Memory.load (M.map fun c => (c.1, widenWord m c.2)) base (p.map (widenWord m)) =
      (M.load base p).map fun c => (c.1, widenWord m c.2) := by
  induction p generalizing M base with
  | nil => rfl
  | cons w p ih => rw [List.map_cons, Memory.load, Memory.write_widen hn hm, ih, Memory.load]

/-! ### Validate -/

theorem checkWord_widen (reserved : List Int) (w : Word n) :
    checkWord reserved (widenWord m w) = checkWord reserved w := by
  simp only [checkWord, isZero_widenWord hn hm, div100_widenWord hn hm, toInt_widenWord hn hm]

theorem checkWords_widen (reserved : List Int) (p : List (Word n)) :
    checkWords reserved (p.map (widenWord m)) = checkWords reserved p := by
  induction p with
  | nil => rfl
  | cons w p ih => rw [List.map_cons, checkWords, checkWord_widen hn hm, ih, checkWords]

theorem validate_widen (reserved : List Int) (p : List (Word n)) :
    validate reserved (p.map (widenWord m)) = validate reserved p := by
  rw [validate, List.length_map, checkWords_widen hn hm, validate]

end Words

/-! ### The updates of the state -/

section Updates

variable {p : Config.Parameters} (q : Config.Parameters) (s : State p)

/-- The answer of the wider engine that has the values of an answer. -/
def Result.widen (q : Config.Parameters) : Result p → Result q
  | .next t => .next (t.widen q)
  | .fault r => .fault r
  | .refused r => .refused r

@[simp] theorem Result.widen_next (t : State p) : Result.widen q (.next t) = .next (t.widen q) := rfl

theorem State.widen_setMem (M : Memory p.wordBits) :
    (s.setMem M).widen q = (s.widen q).setMem (M.map fun c => (c.1, widenWord q.wordBits c.2)) := rfl

theorem State.widen_receive (v : Word p.wordBits) (rest : List (Word p.wordBits)) :
    (s.receive v rest).widen q =
      (s.widen q).receive (widenWord q.wordBits v) (rest.map (widenWord q.wordBits)) := by
  simp [State.widen, State.receive]

theorem State.widen_emit (v : Word p.wordBits) :
    (s.emit v).widen q = (s.widen q).emit (widenWord q.wordBits v) := by
  simp [State.widen, State.emit]

theorem State.widen_fresh : (State.fresh p).widen q = State.fresh q := by
  simp only [State.widen, State.fresh, widenWord_zero, List.map_nil]

theorem State.widen_powerOn : (powerOn s).widen q = powerOn (s.widen q) := by
  simp only [State.widen, powerOn, State.fresh, widenWord_zero, List.map_nil]

end Updates

/-! ### The operations every cycle shares, and the twelve handlers -/

theorem wordBits_pos (p : Config.Parameters) : 0 < p.wordBits := by
  have := p.wordBits_ge
  omega

section Handlers

variable {p q : Config.Parameters} {s : State p} (a : Nat)

/-- A handler that reads commutes with widening when it does so for the Word it reads. -/
theorem memRead_widen {a : Int} {k : Word p.wordBits → Result p} {k' : Word q.wordBits → Result q}
    (h : k' (widenWord q.wordBits (s.mem.read a.toNat)) = (k (s.mem.read a.toNat)).widen q) :
    memRead a (s.widen q) k' = (memRead a s k).widen q := by
  unfold memRead
  rw [State.widen_mem, Memory.read_widen]
  split
  · exact h
  · rfl

theorem withWordAt_widen {k : Word p.wordBits → Result p} {k' : Word q.wordBits → Result q}
    (h : k' (widenWord q.wordBits (s.mem.read a)) = (k (s.mem.read a)).widen q) :
    withWordAt a (s.widen q) k' = (withWordAt a s k).widen q := memRead_widen h

theorem execWrite_widen : execWrite a (s.widen q) = (execWrite a s).widen q :=
  withWordAt_widen a (by rw [continueRun, ← State.widen_emit]; rfl)

theorem execLoad_widen : execLoad a (s.widen q) = (execLoad a s).widen q := withWordAt_widen a rfl

variable (hm : p.wordBits ≤ q.wordBits)
include hm

theorem State.widen_latch (s : State p) (c : Int) (w : Word p.wordBits) :
    (s.latch c w).widen q = (s.widen q).latch c (widenWord q.wordBits w) := by
  simp only [State.latch, State.widen, div100_widenWord (wordBits_pos p) hm, mod100_widenWord (wordBits_pos p) hm]

/-- A handler that writes commutes with widening when it does so for the memory that the write leaves. -/
theorem storingAt_widen {v : Word p.wordBits} {k : Memory p.wordBits → Result p} {k' : Memory q.wordBits → Result q}
    (h : ∀ M, k' (M.map fun c => (c.1, widenWord q.wordBits c.2)) = (k M).widen q) :
    storingAt a (widenWord q.wordBits v) (s.widen q) k' = (storingAt a v s k).widen q := by
  unfold storingAt memWrite
  rw [State.widen_mem, Memory.write_widen (wordBits_pos p) hm]
  split
  · exact h _
  · rfl

theorem execRead_widen : execRead a (s.widen q) = (execRead a s).widen q := by
  unfold execRead
  rw [State.widen_input]
  cases s.input with
  | nil => rfl
  | cons v rest =>
    exact storingAt_widen a hm fun M => by rw [← State.widen_setMem, ← State.widen_receive]; rfl

theorem execStore_widen : execStore a (s.widen q) = (execStore a s).widen q :=
  storingAt_widen a hm fun _ => rfl

theorem execAdd_widen (h : WithoutWrap (.add a) s) : execAdd a (s.widen q) = (execAdd a s).widen q :=
  withWordAt_widen a (by rw [State.widen_acc, add_widenWord (wordBits_pos p) hm h]; rfl)

theorem execSubtract_widen (h : WithoutWrap (.subtract a) s) :
    execSubtract a (s.widen q) = (execSubtract a s).widen q :=
  withWordAt_widen a (by rw [State.widen_acc, sub_widenWord (wordBits_pos p) hm h]; rfl)

theorem execMultiply_widen (h : WithoutWrap (.multiply a) s) :
    execMultiply a (s.widen q) = (execMultiply a s).widen q :=
  withWordAt_widen a (by rw [State.widen_acc, mul_widenWord (wordBits_pos p) hm h]; rfl)

theorem execDivide_widen (h : WithoutWrap (.divide a) s) : execDivide a (s.widen q) = (execDivide a s).widen q := by
  refine withWordAt_widen a ?_
  rw [isZero_widenWord (wordBits_pos p) hm, State.widen_acc, div_widenWord (wordBits_pos p) hm h p.quotientOverflow]
  cases isZero (s.mem.read a) <;> rfl

theorem execBranchneg_widen : execBranchneg a (s.widen q) = (execBranchneg a s).widen q := by
  rw [execBranchneg, State.widen_acc, isNegative_widenWord (wordBits_pos p) hm, execBranchneg]
  cases isNegative s.acc <;> rfl

theorem execBranchzero_widen : execBranchzero a (s.widen q) = (execBranchzero a s).widen q := by
  rw [execBranchzero, State.widen_acc, isZero_widenWord (wordBits_pos p) hm, execBranchzero]
  cases isZero s.acc <;> rfl

/-- Every instruction whose exact result is a Word does the same on the wider engine. -/
theorem execute_widen {i : Instr} (h : WithoutWrap i s) : execute i (s.widen q) = (execute i s).widen q := by
  cases i with
  | read a => exact execRead_widen a hm
  | write a => exact execWrite_widen a
  | load a => exact execLoad_widen a
  | store a => exact execStore_widen a hm
  | add a => exact execAdd_widen a hm h
  | subtract a => exact execSubtract_widen a hm h
  | divide a => exact execDivide_widen a hm h
  | multiply a => exact execMultiply_widen a hm h
  | branch a => rfl
  | branchneg a => exact execBranchneg_widen a hm
  | branchzero a => exact execBranchzero_widen a hm
  | halt a => rfl

end Handlers

/-! ### The step -/

section Step

variable {p q : Config.Parameters} {s : State p}

theorem inputReady_widen (i : Instr) : inputReady i (s.widen q) = inputReady i s := by
  cases i <;> simp [inputReady]

variable (hm : p.wordBits ≤ q.wordBits)
include hm

theorem dispatchDecoded_widen {c : Int} {w : Word p.wordBits} {d : Decoded}
    (h : ∀ i, d = .instr i → WithoutWrap i s) :
    dispatchDecoded execute c (widenWord q.wordBits w) (s.widen q) d =
      (dispatchDecoded execute c w s d).widen q := by
  cases d with
  | rejected r k =>
    rw [dispatchDecoded, ← State.widen_latch hm, State.widen_opCode, toInt_widenWord (wordBits_pos p) hm]
    rfl
  | instr i =>
    rw [dispatchDecoded, inputReady_widen, ← State.widen_latch hm, dispatchDecoded]
    cases inputReady i s
    · rfl
    · exact execute_widen hm (s := s.latch c w) (h i rfl)

theorem startRun_widen (P : List (Word p.wordBits)) :
    startRun (P.map (widenWord q.wordBits)) (s.widen q) = (startRun P s).map (State.widen q) := by
  unfold startRun
  rw [List.length_map, State.widen_mem, Memory.load_widen (wordBits_pos p) hm]
  split
  · rfl
  · simp only [Except.map, State.widen, widenWord_zero, List.map_nil]

variable (hres : q.reservedOpcodes = p.reservedOpcodes)
include hres

theorem cycle_widen (hs : s.state = .running) (h : NextWithoutWrap s) :
    cycle execute (s.widen q) = (cycle execute s).widen q := by
  by_cases hend : (Config.memSize : Int) ≤ s.counter + 1
  · rw [cycle_end execute hend, cycle_end execute (s := s.widen q) hend]
    rfl
  by_cases hbelow : s.counter + 1 < 0
  · rw [cycle_below execute hbelow, cycle_below execute (s := s.widen q) hbelow]
    rfl
  rw [not_le] at hend
  rw [not_lt] at hbelow
  rw [cycle_fetch execute (s := s) hbelow hend, cycle_fetch execute (s := s.widen q) hbelow hend,
    State.widen_mem, Memory.read_widen, State.widen_counter, decodeWith_widenWord (wordBits_pos p) hm, hres]
  exact dispatchDecoded_widen hm fun i hd => h _ _ i ⟨hs, by omega, by omega, rfl⟩ hd

theorem serveCommand_widen (c : Command p.wordBits) :
    serveCommand (c.widen q.wordBits) (s.widen q) = (serveCommand c s).widen q := by
  cases c with
  | powerOn => exact congrArg Host.Outcome.next (State.widen_powerOn q s).symm
  | validate P =>
    rw [Command.widen, serveCommand, validate_widen (wordBits_pos p) hm, hres]
    rfl
  | run P =>
    rw [Command.widen, serveCommand, startRun_widen hm, serveCommand]
    cases startRun P s <;> rfl

theorem serveHost_widen : serveHost (s.widen q) = (serveHost s).widen q := by
  unfold serveHost
  rw [State.widen_commands]
  cases s.commands with
  | nil => rfl
  | cons c rest => exact serveCommand_widen hm hres (s := { s with commands := rest }) c

/-- The lock step of two widths: a step in which nothing wraps commutes with widening. -/
theorem stepAt_widen (h : NextWithoutWrap s) : stepAt (s.widen q) = (stepAt s).widen q := by
  by_cases hs : s.state = .running
  · rw [stepAt_running hs, stepAt_running (s := s.widen q) hs]
    exact cycle_widen hm hres hs h
  · rw [stepAt_not_running hs, stepAt_not_running (s := s.widen q) hs]
    exact serveHost_widen hm hres

end Step

/-- Settles O58: the step of the widened engine is the widened step. -/
theorem widerStepsAgreeUntilAWrap : Obligations.WiderStepsAgreeUntilAWrap := by
  intro p q s t hm hres h hst
  rw [stepAt_widen hm hres h, hst, Result.widen_next]

/-- A run of one step more has a first step, and goes on from there. -/
theorem step_of_run_succ {M : Host.Core} {k : Nat} {s t : M.State} (h : M.run (k + 1) s = .next t) :
    ∃ u, M.step s = .next u ∧ M.run k u = .next t := by
  cases hs : M.step s with
  | next u => exact ⟨u, rfl, by rwa [run_succ_of_next M k hs] at h⟩
  | fault r => simp [Host.Core.run, hs] at h
  | refused r => simp [Host.Core.run, hs] at h

/-- Settles O59, by induction on the number of steps; the hypothesis on the run goes on with the first step's state. -/
theorem widerRunsAgreeUntilAWrap : Obligations.WiderRunsAgreeUntilAWrap := by
  intro p q k s t hm hres hrun ht
  induction k generalizing s with
  | zero =>
    cases ht
    rfl
  | succ k ih =>
    obtain ⟨u, hst, hut⟩ := step_of_run_succ ht
    have hq : stepAt (s.widen q) = .next (u.widen q) :=
      widerStepsAgreeUntilAWrap p q s u hm hres (hrun 0 s (by omega) rfl) hst
    rw [run_succ_of_next (engine q) k hq]
    refine ih u (fun j v hj hv => hrun (j + 1) v (by omega) ?_) hut
    rw [run_succ_of_next (engine p) j hst, hv]

end Sys2Proof.Machine
end

section
/-! ## The opcode lookup, and what the reserved set decides (R7, R87 to R89) -/

namespace Sys2Proof

variable {n : Nat}

theorem lookup_eq_implemented_iff (reserved : List Int) (k : Int) (h : Handler) :
    lookup reserved k = .implemented h ↔ callable k = some h := by
  cases hc : callable k with
  | some g => rw [lookup_of_callable hc, Lookup.implemented.injEq, Option.some.injEq]
  | none => simp [lookup_of_none hc]

theorem lookup_eq_uncallable_iff (reserved : List Int) (k : Int) (r : Rejection) :
    lookup reserved k = .uncallable r ↔ k ∉ Config.implementedOpcodes ∧ rejection reserved k = r := by
  rw [← callable_eq_none_iff]
  cases hc : callable k with
  | some g => simp [lookup_of_callable hc]
  | none => simp [lookup_of_none hc]

theorem rejection_eq_reserved_iff (reserved : List Int) (k : Int) :
    rejection reserved k = .reserved ↔ k ∈ reserved := by
  simp [rejection]

theorem rejection_eq_absent_iff (reserved : List Int) (k : Int) : rejection reserved k = .absent ↔ k ∉ reserved := by
  simp [rejection]

/-- A Word without an implemented opcode is rejected under it (R89). -/
theorem decodeWith_of_not_mem (reserved : List Int) {w : Word n}
    (h : w.toInt.tdiv 100 ∉ Config.implementedOpcodes) :
    ∃ r, decodeWith reserved w = .rejected r (w.toInt.tdiv 100) := by
  rcases decodeWith_cases reserved w with ⟨g, hg, -⟩ | ⟨-, e⟩
  · exact absurd ((callable_eq_none_iff _).2 h) (by simp [hg])
  · exact ⟨_, e⟩

/-- Which Words are instructions does not depend on the reserved set (R89). -/
theorem decodeWith_instr_of_reserved {reserved : List Int} (reserved' : List Int) {w : Word n} {i : Instr}
    (h : decodeWith reserved w = .instr i) : decodeWith reserved' w = .instr i := by
  rcases decodeWith_cases reserved w with ⟨g, hg, e⟩ | ⟨-, e⟩
  · rcases decodeWith_cases reserved' w with ⟨g', hg', e'⟩ | ⟨hk, -⟩
    · obtain rfl : g = g' := Option.some.inj (hg.symm.trans hg')
      rw [e', ← e, h]
    · exact absurd ((callable_eq_none_iff _).2 hk) (by simp [hg])
  · simp [e] at h

end Sys2Proof

namespace Sys2Proof.Machine

variable {n : Nat}

/-- A result of `Validate` with the two names of an opcode error taken for one. -/
def ValidateResult.forgetName : ValidateResult → ValidateResult
  | .unimplementedOpcode k => .unknownOpcode k
  | .ok => .ok
  | .programTooLarge => .programTooLarge
  | .invalidInstructionZero => .invalidInstructionZero
  | .unknownOpcode k => .unknownOpcode k

@[simp] theorem ValidateResult.forgetName_eq_ok_iff {r : ValidateResult} : r.forgetName = .ok ↔ r = .ok := by
  cases r <;> simp [forgetName]

@[simp] theorem ValidateResult.forgetName_eq_programTooLarge_iff {r : ValidateResult} :
    r.forgetName = .programTooLarge ↔ r = .programTooLarge := by
  cases r <;> simp [forgetName]

@[simp] theorem ValidateResult.forgetName_eq_invalidInstructionZero_iff {r : ValidateResult} :
    r.forgetName = .invalidInstructionZero ↔ r = .invalidInstructionZero := by
  cases r <;> simp [forgetName]

@[simp] theorem ValidateResult.forgetName_eq_unknownOpcode_iff {r : ValidateResult} {k : Int} :
    r.forgetName = .unknownOpcode k ↔ r = .unknownOpcode k ∨ r = .unimplementedOpcode k := by
  cases r <;> simp [forgetName]

/-- A rejected lookup gives one opcode error, under either name (R183). -/
theorem checkLookup_uncallable (k : Int) (r : Rejection) :
    (checkLookup k (.uncallable r)).map ValidateResult.forgetName = some (.unknownOpcode k) := by
  cases r <;> rfl

theorem checkWord_forgetName (reserved reserved' : List Int) (w : Word n) :
    (checkWord reserved w).map ValidateResult.forgetName = (checkWord reserved' w).map ValidateResult.forgetName := by
  unfold checkWord
  cases isZero w with
  | true => rfl
  | false =>
    cases hc : callable (Alu.div100 w).toInt with
    | some h => rw [lookup_of_callable hc, lookup_of_callable hc]
    | none =>
      rw [lookup_of_none hc, lookup_of_none hc, if_neg (by decide), if_neg (by decide), checkLookup_uncallable,
        checkLookup_uncallable]

theorem checkWords_forgetName (reserved reserved' : List Int) (p : List (Word n)) :
    (checkWords reserved p).forgetName = (checkWords reserved' p).forgetName := by
  induction p with
  | nil => rfl
  | cons w p ih =>
    rw [checkWords, checkWords, ← Option.getD_map ValidateResult.forgetName,
      ← Option.getD_map ValidateResult.forgetName, checkWord_forgetName reserved reserved', ih]

/-- The results of `Validate` under two reserved sets differ in nothing but the name of an opcode error (R89). -/
theorem validate_forgetName (reserved reserved' : List Int) (p : List (Word n)) :
    (validate reserved p).forgetName = (validate reserved' p).forgetName := by
  unfold validate
  split
  · rfl
  · exact checkWords_forgetName reserved reserved' p

/-- Settles O3: the three outcomes are the handler of the table, and the two rejections. -/
theorem lookupIsThreeWay : Obligations.LookupIsThreeWay := by
  intro reserved hdis k
  refine ⟨fun h => ?_, ?_, ?_, ?_⟩
  · rw [lookup_eq_implemented_iff, callable_eq_some_iff]
  · simp_rw [lookup_eq_implemented_iff]
    rw [← Option.isSome_iff_exists, Option.isSome_iff_ne_none, ne_eq, callable_eq_none_iff, not_not]
  · rw [lookup_eq_uncallable_iff, rejection_eq_reserved_iff]
    exact ⟨And.right, fun hk => ⟨hdis k hk, hk⟩⟩
  · rw [lookup_eq_uncallable_iff, rejection_eq_absent_iff]

/-- Settles O42: decode takes no name from the reserved set, and `Validate` takes nothing but the name. -/
theorem reservedSetOnlyNamesErrors : Obligations.ReservedSetOnlyNamesErrors := by
  intro reserved reserved'
  refine ⟨fun w i => decodeWith_instr_of_reserved reserved', fun p => ?_⟩
  rw [← ValidateResult.forgetName_eq_ok_iff, ← ValidateResult.forgetName_eq_programTooLarge_iff,
    ← ValidateResult.forgetName_eq_invalidInstructionZero_iff, validate_forgetName reserved reserved' p]
  refine ⟨ValidateResult.forgetName_eq_ok_iff.1, ValidateResult.forgetName_eq_programTooLarge_iff.1,
    ValidateResult.forgetName_eq_invalidInstructionZero_iff.1, fun k h => ?_⟩
  rw [← ValidateResult.forgetName_eq_unknownOpcode_iff, ← validate_forgetName reserved reserved' p, h]
  rfl

end Sys2Proof.Machine
end

section
/-! ## Decode and encode at every width (R80, R83, R96) -/

namespace Sys2Proof

variable {n : Nat}

/-- The value of an instruction's Word (R96). -/
theorem encode_toInt (hn : 16 ≤ n) {i : Instr} (hw : i.WellFormed) :
    (encode i n).toInt = i.opcode * 100 + i.operand := by
  have hk := i.opcode_bounds
  have ha : i.operand < 100 := hw
  exact encodeFields_toInt hn (by omega) (by omega) (by omega) (by omega)

/-- Encoding the two fields of a Word gives the Word back (R96). -/
theorem encodeFields_div100_mod100 (w : Word n) :
    encodeFields (Machine.Alu.div100 w).toInt (Machine.Alu.mod100 w).toInt n = w := by
  rw [Machine.Alu.div100_toInt, Machine.Alu.mod100_toInt, encodeFields, Config.operandModulus,
    ← (Machine.Alu.split_by_100 w.toInt).1, Machine.Alu.wrap_toInt]

/-- A Word that decodes to an instruction is its encoding. -/
theorem encode_of_decodeWith {reserved : List Int} {w : Word n} {i : Instr} (h : decodeWith reserved w = .instr i) :
    encode i n = w := by
  obtain ⟨hk, ha, -⟩ := fields_of_decodeWith h
  rw [encode, ← hk, ← ha, encodeFields_div100_mod100]

/-- The fields of an instruction's Word. -/
theorem fields_encode (hn : 16 ≤ n) {i : Instr} (hw : i.WellFormed) :
    (encode i n).toInt.tdiv 100 = i.opcode ∧ (encode i n).toInt.tmod 100 = i.operand := by
  have hv := encode_toInt hn hw
  have hk := i.opcode_bounds
  have ha : i.operand < 100 := hw
  exact Machine.Alu.fields_unique hv (by omega) (by omega)

/-- The Word of a well-formed instruction decodes to it (R96). -/
theorem decodeWith_encode (hn : 16 ≤ n) (reserved : List Int) {i : Instr} (hw : i.WellFormed) :
    decodeWith reserved (encode i n) = .instr i := by
  obtain ⟨hk, ha⟩ := fields_encode hn hw
  rcases decodeWith_cases reserved (encode i n) with ⟨g, -, e⟩ | ⟨hno, -⟩
  · obtain ⟨hk', ha'⟩ := decodeWith_eq_instr e
    rw [e, Instr.ext_of_opcode (hk'.trans hk) (ha'.trans (by omega))]
  · exact absurd (opcode_mem i) (hk ▸ hno)

/-- A Word decodes to exactly the well-formed instruction whose Word it is. -/
theorem decodeWith_eq_instr_iff (hn : 16 ≤ n) {reserved : List Int} {w : Word n} {i : Instr} :
    decodeWith reserved w = .instr i ↔ i.WellFormed ∧ encode i n = w := by
  constructor
  · exact fun h => ⟨(fields_of_decodeWith h).2.2, encode_of_decodeWith h⟩
  · rintro ⟨hw, rfl⟩
    exact decodeWith_encode hn reserved hw

namespace Machine

/-- Settles O54. -/
theorem everyWidthDecodesItsEncodings : Obligations.EveryWidthDecodesItsEncodings := fun p _ w =>
  ⟨fun _ => decodeWith_eq_instr_iff p.wordBits_ge, Alu.div100_toInt w, Alu.mod100_toInt w,
    encodeFields_div100_mod100 w⟩

end Machine

end Sys2Proof
end

section
/-! ## The cycle and the twelve instructions at every width (R101 to R105, R121 to R164) -/

namespace Sys2Proof.Machine

variable {cfg : Config.Parameters} {s : State cfg}

/-- A cycle that fetches a Word dispatches what it decodes to (R102, R103). -/
theorem stepAt_of_fetches {c : Nat} {w : Word cfg.wordBits} (h : Fetches s c w) :
    stepAt s = dispatchDecoded execute c w s (decodeWith cfg.reservedOpcodes w) := by
  obtain ⟨hs, hcc, hc, hw⟩ := h
  rw [stepAt_running hs, cycle_fetch execute (by omega) (by omega), hcc, Int.toNat_natCast, hw]

/-- Settles O55: the three ways of a cycle that do not wait. -/
theorem everyWidthRunsTheFetchedWord : Obligations.EveryWidthRunsTheFetchedWord := by
  intro p s
  refine ⟨fun c w hf => ⟨fun i hd hr => ?_, fun hno => ?_⟩, fun hs hend => ?_⟩
  · rw [stepAt_of_fetches hf, hd, dispatch_instr execute hr]
  · obtain ⟨r, e⟩ := decodeWith_of_not_mem p.reservedOpcodes hno
    rw [stepAt_of_fetches hf, e, dispatchDecoded, raise, State.latch_opCode, Alu.div100_toInt]
  · rw [stepAt_running hs, cycle_end execute hend]

/-- DIVIDE by a divisor that is not zero, but for the overflowing quotient: the quotient by R10's formula, wrapped. -/
theorem div_wrapsTo {a b : Word cfg.wordBits} (h : ¬(a.toInt = wmin cfg.wordBits ∧ b.toInt = -1))
    (o : Word cfg.wordBits) : WrapsTo (Alu.div a b o) (truncatedQuotient a.toInt b.toInt) := by
  rw [Alu.div_eq_wrap h, Alu.truncatedQuotient_eq_tdiv]
  exact Alu.wrapsTo_wrap (wordBits_pos cfg) _

theorem execBranchneg_eq (a : Nat) (s : State cfg) :
    execBranchneg a s = .next (if s.acc.toInt < 0 then s.setCounter (a - 1) else s) := by
  split
  next h => exact execBranchneg_taken h
  next h => exact execBranchneg_not_taken (by omega)

theorem execBranchzero_eq (a : Nat) (s : State cfg) :
    execBranchzero a s = .next (if s.acc.toInt = 0 then s.setCounter (a - 1) else s) := by
  split
  next h => exact execBranchzero_taken ((Alu.toInt_eq_zero_iff _).1 h)
  next h => exact execBranchzero_not_taken (mt (Alu.toInt_eq_zero_iff _).2 h)

/-- Settles O56: what each handler answers on an address of memory, with the Word that its result wraps to. -/
theorem everyWidthRunsTheTwelve : Obligations.EveryWidthRunsTheTwelve := by
  intro p s a ha hm
  have hn := wordBits_pos p
  refine ⟨fun v rest hin => ⟨_, execRead_ok ha hin, Memory.read_write_same hm a v,
      fun b hb => Memory.read_write_other hm v hb⟩,
    execWrite_ok ha s, execLoad_ok ha s,
    ⟨_, execStore_ok ha s, Memory.read_write_same hm a _, fun b hb => Memory.read_write_other hm _ hb⟩,
    ⟨_, execAdd_ok ha s, Alu.wrapsTo_wrap hn _⟩, ⟨_, execSubtract_ok ha s, Alu.wrapsTo_wrap hn _⟩,
    ⟨_, execMultiply_ok ha s, Alu.wrapsTo_wrap hn _⟩,
    fun hz hno => ⟨_, execDivide_ok ha hz, div_wrapsTo hno _⟩, fun hmin hneg => ?_,
    fun hz => execDivide_zero ha hz, rfl, execBranchneg_eq a s, execBranchzero_eq a s, rfl⟩
  have hz : s.mem.read a ≠ 0 := fun hz => by
    rw [(Alu.toInt_eq_zero_iff _).2 hz] at hneg
    omega
  rw [execute, execDivide_ok ha hz, Alu.div_overflow hmin hneg]
  rfl

end Sys2Proof.Machine
end

section
/-! ## Operands past memory, and the configuration of this hardware (R5 to R7, R12, R56) -/

namespace Sys2Proof.Machine

variable {cfg : Config.Parameters}

/-- The eight instructions that access memory ask the arbiter first, and past memory its fault is all they do. -/
theorem execute_outside {i : Instr} {s : State cfg} (ha : Config.memSize ≤ i.operand)
    (hk : i.opcode ∈ [10, 11, 20, 21, 30, 31, 32, 33]) (hr : inputReady i s = true) :
    execute i s = raise (.addressOutOfRange i.operand) s := by
  cases i with
  | read a =>
    cases hin : s.input with
    | nil => simp [inputReady, hin] at hr
    | cons v rest =>
      rw [execute, execRead, hin]
      exact storingAt_outside ha v s _
  | write a =>
    rw [execute, execWrite]
    exact withWordAt_outside ha s _
  | load a =>
    rw [execute, execLoad]
    exact withWordAt_outside ha s _
  | store a =>
    rw [execute, execStore]
    exact storingAt_outside ha _ s _
  | add a =>
    rw [execute, execAdd]
    exact withWordAt_outside ha s _
  | subtract a =>
    rw [execute, execSubtract]
    exact withWordAt_outside ha s _
  | divide a =>
    rw [execute, execDivide]
    exact withWordAt_outside ha s _
  | multiply a =>
    rw [execute, execMultiply]
    exact withWordAt_outside ha s _
  | branch a => simp [Instr.opcode] at hk
  | branchneg a => simp [Instr.opcode] at hk
  | branchzero a => simp [Instr.opcode] at hk
  | halt a => simp [Instr.opcode] at hk

/-- Settles O30: the arbiter's fault is the whole effect. -/
theorem operandPastMemoryFaults : Obligations.OperandPastMemoryFaults := by
  intro i s ha hk hr
  rw [exec_eq_execute, execute_outside ha hk hr]
  exact ⟨_, rfl, rfl, rfl, rfl, rfl, rfl, rfl, rfl, rfl⟩

/-- Settles O53: a configuration carries its constraints, and the fixed names are the family's members at `hardware`. -/
theorem hardwareIsTheDefaultEngine : Obligations.HardwareIsTheDefaultEngine := by
  refine ⟨fun p => ⟨p.wordBits_ge, p.reserved_disjoint⟩, rfl, Alu.toInt_quotientOverflow (by decide),
    fun i s => by rw [exec_eq_execute], fun s => by rw [step_eq_stepAt], ?_⟩
  rw [core, engine, step_eq_stepAt]
  rfl

end Sys2Proof.Machine
end

section
/-! ## What a step can do, the transitions of the FSM, and the invariant along a run (R30, R37, R106) -/

namespace Sys2Proof.Machine

variable {cfg : Config.Parameters} {s t : State cfg}

/-! ### Every step answers -/

theorem cycle_answers (s : State cfg) : ∃ t, cycle execute s = .next t := by
  rcases cycle_cases execute s with ⟨-, e⟩ | ⟨-, e⟩ | ⟨c, -, -, ⟨_, _, -, e⟩ | ⟨_, -, -, e⟩ | ⟨i, -, -, e⟩⟩
  · exact ⟨_, e⟩
  · exact ⟨_, e⟩
  · exact ⟨_, e⟩
  · exact ⟨_, e⟩
  · rw [e]
    exact execute_answers i _

theorem serveCommand_answers (c : Command cfg.wordBits) (s : State cfg) : ∃ t, serveCommand c s = .next t := by
  cases c with
  | powerOn => exact ⟨_, rfl⟩
  | validate p => exact ⟨_, rfl⟩
  | run p =>
    rw [serveCommand]
    cases startRun p s with
    | ok t => exact ⟨t, rfl⟩
    | error r => exact ⟨_, rfl⟩

theorem serveHost_answers (s : State cfg) : ∃ t, serveHost s = .next t := by
  cases hc : s.commands with
  | nil => exact ⟨s, serveHost_nil hc⟩
  | cons c cs =>
    rw [serveHost_cons hc]
    exact serveCommand_answers c _

theorem stepAt_answers (s : State cfg) : ∃ t, stepAt s = .next t := by
  by_cases hs : s.state = .running
  · rw [stepAt_running hs]
    exact cycle_answers s
  · rw [stepAt_not_running hs]
    exact serveHost_answers s

/-- Settles O8: a cycle, a host command and each of the twelve handlers answer next on every path. -/
theorem everyStepAnswersNext : Obligations.EveryStepAnswersNext := by
  unfold Obligations.EveryStepAnswersNext
  rw [step_eq_stepAt, exec_eq_execute]
  exact ⟨stepAt_answers, execute_answers⟩

/-! ### The transitions of the FSM -/

/-- A well-formed instruction keeps the FSM's state, or ends the run. -/
theorem state_of_execute {i : Instr} (hw : i.WellFormed) (h : execute i s = .next t) :
    t.state = s.state ∨ t.state = .halted ∨ t.state = .faulted := by
  rcases execute_cases hw h with ⟨rfl, -⟩ | ⟨-, v, rest, -, rfl⟩ | ⟨-, rfl⟩ | ⟨-, rfl⟩ | ⟨-, v, rfl⟩ |
    ⟨-, -, rfl⟩ | ⟨-, rfl⟩ | ⟨-, rfl⟩
  · exact .inl rfl
  · exact .inl rfl
  · exact .inl rfl
  · exact .inl rfl
  · exact .inl rfl
  · exact .inr (.inr rfl)
  · exact .inl rfl
  · exact .inr (.inl rfl)

/-- A cycle keeps the FSM's state, or ends the run (R106). -/
theorem state_of_cycle (h : cycle execute s = .next t) :
    t.state = s.state ∨ t.state = .halted ∨ t.state = .faulted := by
  rcases cycle_cases execute s with ⟨-, e⟩ | ⟨-, e⟩ | ⟨c, -, -, ⟨_, _, -, e⟩ | ⟨_, -, -, e⟩ | ⟨i, hd, -, e⟩⟩
  · cases h.symm.trans e
    exact .inr (.inl rfl)
  · cases h.symm.trans e
    exact .inr (.inr rfl)
  · cases h.symm.trans e
    exact .inr (.inr rfl)
  · cases h.symm.trans e
    exact .inl rfl
  · exact state_of_execute (s := s.latch c _) (fields_of_decodeWith hd).2.2 (e.symm.trans h)

/-- A run that begins is Running, and its program fits into memory (R190, R191). -/
theorem state_of_startRun {p : List (Word cfg.wordBits)} (h : startRun p s = .ok t) :
    t.state = .running ∧ p.length ≤ Config.memSize := by
  unfold startRun at h
  split at h
  · cases h
  next hlen =>
    cases h
    exact ⟨rfl, not_lt.1 hlen⟩

/-- Everything a host command can do (R180): power the engine on, give a result back, or begin a run. -/
theorem serveCommand_cases {c : Command cfg.wordBits} (h : serveCommand c s = .next t) :
    (c = .powerOn ∧ t = powerOn s) ∨ (∃ r, t = s.giveBack r) ∨ ∃ p, c = .run p ∧ startRun p s = .ok t := by
  cases c with
  | powerOn =>
    cases h
    exact .inl ⟨rfl, rfl⟩
  | validate p =>
    cases h
    exact .inr (.inl ⟨_, rfl⟩)
  | run p =>
    rw [serveCommand] at h
    cases hp : startRun p s with
    | ok u =>
      rw [hp] at h
      cases h
      exact .inr (.inr ⟨p, rfl, hp⟩)
    | error r =>
      rw [hp] at h
      cases h
      exact .inr (.inl ⟨_, rfl⟩)

/-- An engine that serves its host keeps the FSM's state, or is Ready after PowerOn, or Running after Run. -/
theorem state_of_serveHost (h : serveHost s = .next t) :
    t.state = s.state ∨
    (t.state = .ready ∧ ∃ rest, s.commands = .powerOn :: rest) ∨
    (t.state = .running ∧ ∃ p rest, s.commands = .run p :: rest ∧ p.length ≤ Config.memSize) := by
  cases hc : s.commands with
  | nil =>
    cases h.symm.trans (serveHost_nil hc)
    exact .inl rfl
  | cons c rest =>
    rw [serveHost_cons hc] at h
    rcases serveCommand_cases h with ⟨rfl, rfl⟩ | ⟨r, rfl⟩ | ⟨p, rfl, hp⟩
    · exact .inr (.inl ⟨rfl, rest, rfl⟩)
    · exact .inl rfl
    · obtain ⟨hs, hlen⟩ := state_of_startRun hp
      exact .inr (.inr ⟨hs, p, rest, rfl, hlen⟩)

/-- Settles O13: a cycle leaves Running only by ending the run, and a stopped engine moves only by its host. -/
theorem fsmTransitionsAreComplete : Obligations.FsmTransitionsAreComplete := by
  intro s t h
  rw [step_eq_stepAt] at h
  refine ⟨fun hs => ?_, fun hs => ?_⟩
  · rw [stepAt_running hs] at h
    rw [← hs]
    exact state_of_cycle h
  · rw [stepAt_not_running hs] at h
    exact state_of_serveHost h

/-! ### The invariant -/

/-- Settles O49: the state after power-on is the fresh engine of this hardware. -/
theorem resetMeetsEngineInvariant : Obligations.ResetMeetsEngineInvariant := EngineInv.of_fresh

theorem step_keeps_inv {s : State} (h : EngineInv s) : ∃ t, step s = .next t ∧ EngineInv t := by
  rw [step_eq_stepAt]
  exact stepAt_keeps_inv h

/-- Settles O50: the step has one answer, and the step lemma of every configuration says that it meets the invariant. -/
theorem stepKeepsEngineInvariant : Obligations.StepKeepsEngineInvariant := by
  intro s t h ht
  obtain ⟨u, hu, hinv⟩ := step_keeps_inv h
  cases ht.symm.trans hu
  exact hinv

/-- Settles O52, by induction on the number of steps: the first step answers within the invariant (it may
hold or fault, but that is a next state too: logs 6, 9 and 13), and the run goes on from its answer. -/
theorem runsStayInTheInvariant : Obligations.RunsStayInTheInvariant := by
  intro k
  induction k with
  | zero => exact fun s h => ⟨s, rfl, h⟩
  | succ k ih =>
    intro s h
    obtain ⟨u, hu, hinv⟩ := step_keeps_inv h
    rw [run_succ_of_next core k hu]
    exact ih u hinv

end Sys2Proof.Machine
end

section
/-! ## The frame of the twelve instructions (R24 to R33, R53, R120, R130, R140, R160) -/

namespace Sys2Proof.Machine

/-- A write changes no Word but the one at its own address. -/
theorem Memory.eq_of_read_write_ne {n : Nat} {m : Memory n} (hm : m.wf) {a b : Nat} {v : Word n}
    (h : (m.write a v).read b ≠ m.read b) : a = b := by
  by_contra hab
  exact h (Memory.read_write_other hm v (Ne.symm hab))

/-- Settles O29: each effect of `execute_cases` writes the fields its instruction may write. -/
theorem handlersWriteOnlyTheirTargets : Obligations.HandlersWriteOnlyTheirTargets := by
  intro i s t hw hm h
  rw [exec_eq_execute] at h
  rcases execute_cases hw h with ⟨rfl, -⟩ | ⟨hi, v, rest, -, rfl⟩ | ⟨hi, rfl⟩ | ⟨hi, rfl⟩ | ⟨hk, v, rfl⟩ |
    ⟨hi, -, rfl⟩ | ⟨hk, rfl⟩ | ⟨hi, rfl⟩
  · simp
  · have hk : i.opcode = 10 := by rw [hi]; rfl
    simpa [hk] using fun b => Memory.eq_of_read_write_ne hm
  · have hk : i.opcode = 11 := by rw [hi]; rfl
    simp [hk]
  · have hk : i.opcode = 21 := by rw [hi]; rfl
    simpa [hk] using fun b => Memory.eq_of_read_write_ne hm
  · simpa using fun _ => hk
  · have hk : i.opcode = 32 := by rw [hi]; rfl
    simp [hk]
  · have hk : i.opcode ∈ [40, 41, 42, 43] := List.mem_append_left [43] hk
    simpa using fun _ => hk
  · have hk : i.opcode = 43 := by rw [hi]; rfl
    simp [hk]

end Sys2Proof.Machine
end

section
/-! ## Memory across a whole cycle: who writes it, what the next fetch sees, and the arbiter (R53 to R56, R68, R217) -/

namespace Sys2Proof.Machine

variable {cfg : Config.Parameters} {s t : State cfg}

/-! ### Who writes memory -/

/-- A well-formed instruction changes a Word only as a READ of the next delivered Word to it, or a STORE of `acc`
to it. -/
theorem writer_of_execute {i : Instr} (hw : i.WellFormed) (hm : s.mem.wf) (h : execute i s = .next t) {b : Nat}
    (hb : t.mem.read b ≠ s.mem.read b) :
    (i = .read b ∧ s.input.head? = some (t.mem.read b)) ∨ (i = .store b ∧ t.mem.read b = s.acc) := by
  rcases execute_cases hw h with ⟨rfl, -⟩ | ⟨hi, v, rest, hin, rfl⟩ | ⟨-, rfl⟩ | ⟨hi, rfl⟩ | ⟨-, v, rfl⟩ |
    ⟨-, -, rfl⟩ | ⟨-, rfl⟩ | ⟨-, rfl⟩
  · exact absurd rfl hb
  · have hab : i.operand = b := Memory.eq_of_read_write_ne hm hb
    rw [hab] at hi ⊢
    exact .inl ⟨hi, by simp [hin, Memory.read_write_same hm]⟩
  · exact absurd rfl hb
  · have hab : i.operand = b := Memory.eq_of_read_write_ne hm hb
    rw [hab] at hi ⊢
    exact .inr ⟨hi, Memory.read_write_same hm b s.acc⟩
  · exact absurd rfl hb
  · exact absurd rfl hb
  · exact absurd rfl hb
  · exact absurd rfl hb

/-- A cycle that changes a Word of memory has fetched an instruction and run it. -/
theorem executed_of_cycle_mem_ne (hs : s.state = .running) (h : cycle execute s = .next t) (hm : t.mem ≠ s.mem) :
    ∃ (c : Nat) (w : Word cfg.wordBits) (i : Instr), Fetches s c w ∧ decodeWith cfg.reservedOpcodes w = .instr i ∧
      execute i (s.latch c w) = .next t := by
  rcases cycle_cases execute s with ⟨-, e⟩ | ⟨-, e⟩ | ⟨c, hc, hcc, ⟨_, _, -, e⟩ | ⟨_, -, -, e⟩ | ⟨i, hd, -, e⟩⟩
  · cases h.symm.trans e
    exact absurd rfl hm
  · cases h.symm.trans e
    exact absurd rfl hm
  · cases h.symm.trans e
    exact absurd rfl hm
  · cases h.symm.trans e
    exact absurd rfl hm
  · exact ⟨c, _, i, ⟨hs, hcc, hc, rfl⟩, hd, e.symm.trans h⟩

/-- Settles O34: the cycle has run an instruction on the latched state, whose memory, `acc` and input are those before
the cycle, and only READ and STORE write. -/
theorem onlyReadAndStoreWriteMemory : Obligations.OnlyReadAndStoreWriteMemory := by
  intro s t hm hs h b hb
  rw [step_eq_stepAt, stepAt_running hs] at h
  obtain ⟨c, w, i, hf, hd, he⟩ := executed_of_cycle_mem_ne hs h fun e => hb (by rw [e])
  obtain ⟨-, -, hwf⟩ := fields_of_decodeWith hd
  refine ⟨c, w, hf, ?_⟩
  rcases writer_of_execute (s := s.latch c w) hwf hm he hb with ⟨rfl, hv⟩ | ⟨rfl, hv⟩
  · exact .inl ⟨hd, hv⟩
  · exact .inr ⟨hd, hv⟩

/-! ### What the next fetch sees -/

/-- A cycle that fetches a STORE writes `acc` to its address. -/
theorem stepAt_store {c a : Nat} {w : Word cfg.wordBits} (hf : Fetches s c w)
    (hd : decodeWith cfg.reservedOpcodes w = .instr (.store a)) :
    stepAt s = .next ((s.latch c w).setMem (s.mem.write a s.acc)) := by
  obtain ⟨-, -, ha⟩ := fields_of_decodeWith hd
  rw [stepAt_of_fetches hf, hd, dispatch_instr execute rfl]
  exact execStore_ok ha _

/-- A cycle that fetches a READ, with a Word delivered, consumes it and writes it to its address. -/
theorem stepAt_read {c a : Nat} {w v : Word cfg.wordBits} {rest : List (Word cfg.wordBits)} (hf : Fetches s c w)
    (hd : decodeWith cfg.reservedOpcodes w = .instr (.read a)) (hin : s.input = v :: rest) :
    stepAt s = .next (((s.latch c w).setMem (s.mem.write a v)).receive v rest) := by
  obtain ⟨-, -, ha⟩ := fields_of_decodeWith hd
  rw [stepAt_of_fetches hf, hd, dispatch_instr execute (by simp [inputReady, hin])]
  exact execRead_ok (s := s.latch c w) ha hin

/-- A Running engine at `c` whose memory is `m` with `v` written at `a` fetches next `v`, if `a` is the next address,
and otherwise the Word that `m` has there. -/
theorem fetches_after_write {m : Memory cfg.wordBits} (hm : m.wf) {c a : Nat} (ha : a < Config.memSize)
    {v : Word cfg.wordBits} (hs : t.state = .running) (hc : t.counter = c) (ht : t.mem = m.write a v) :
    (a = c + 1 → Fetches t a v) ∧ (a ≠ c + 1 → c + 1 < Config.memSize → Fetches t (c + 1) (m.read (c + 1))) :=
  ⟨fun hac => ⟨hs, by omega, ha, by rw [ht, Memory.read_write_same hm]⟩,
    fun hac hlt => ⟨hs, by omega, hlt, by rw [ht, Memory.read_write_other hm v (Ne.symm hac)]⟩⟩

/-- Settles O35: both instructions leave the engine Running at `c`, with the fetched Word latched and one Word
written. -/
theorem fetchSeesTheLatestWrite : Obligations.FetchSeesTheLatestWrite := by
  intro s c a w hm hf
  have ⟨hs, _⟩ := hf
  rw [step_eq_stepAt]
  refine ⟨fun hd => ?_, fun v rest hd hin => ?_⟩
  · obtain ⟨-, -, ha⟩ := fields_of_decodeWith hd
    exact ⟨_, stepAt_store hf hd, rfl, Memory.read_write_same hm a s.acc, fetches_after_write hm ha hs rfl rfl⟩
  · obtain ⟨-, -, ha⟩ := fields_of_decodeWith hd
    exact ⟨_, stepAt_read hf hd hin, rfl, Memory.read_write_same hm a v, fetches_after_write hm ha hs rfl rfl⟩

/-! ### The arbiter -/

/-- Inside the address space the arbiter performs the write. -/
theorem memWrite_ok {a : Int} (h1 : 0 ≤ a) (h2 : a < Config.memSize) (v : Word cfg.wordBits) (s : State cfg)
    (k : Memory cfg.wordBits → Result cfg) : memWrite a v s k = k (s.mem.write a.toNat v) := by
  rw [memWrite, if_pos ((inBounds_iff a).2 ⟨h1, h2⟩)]

/-- Outside it, the arbiter raises its fault and writes nothing. -/
theorem memWrite_outside {a : Int} (h : ¬(0 ≤ a ∧ a < Config.memSize)) (v : Word cfg.wordBits) (s : State cfg)
    (k : Memory cfg.wordBits → Result cfg) : memWrite a v s k = raise (.addressOutOfRange a) s := by
  rw [memWrite, if_neg (fun h' => h ((inBounds_iff a).1 h'))]

/-- A well-formed instruction raises no fault but `DivisionByZero`. -/
theorem fault_of_execute {i : Instr} (hw : i.WellFormed) (h : execute i s = .next t) :
    t.fault = s.fault ∨ t.fault = some (.divisionByZero i.operand) := by
  rcases execute_cases hw h with ⟨rfl, -⟩ | ⟨-, v, rest, -, rfl⟩ | ⟨-, rfl⟩ | ⟨-, rfl⟩ | ⟨-, v, rfl⟩ |
    ⟨-, -, rfl⟩ | ⟨-, rfl⟩ | ⟨-, rfl⟩
  · exact .inl rfl
  · exact .inl rfl
  · exact .inl rfl
  · exact .inl rfl
  · exact .inl rfl
  · exact .inr rfl
  · exact .inl rfl
  · exact .inl rfl

/-- From a counter of -1 or more a cycle raises no fault but `DivisionByZero` and `RuntimeUnknownOpcode` (R56). -/
theorem fault_of_cycle (hc : -1 ≤ s.counter) (h : cycle execute s = .next t) :
    t.fault = s.fault ∨ (∃ a, t.fault = some (.divisionByZero a)) ∨ ∃ k, t.fault = some (.runtimeUnknownOpcode k) := by
  rcases cycle_cases execute s with ⟨-, e⟩ | ⟨hbelow, -⟩ | ⟨c, -, -, ⟨_, _, -, e⟩ | ⟨_, -, -, e⟩ | ⟨i, hd, -, e⟩⟩
  · cases h.symm.trans e
    exact .inl rfl
  · omega
  · cases h.symm.trans e
    exact .inr (.inr ⟨_, rfl⟩)
  · cases h.symm.trans e
    exact .inl rfl
  · obtain ⟨-, -, hwf⟩ := fields_of_decodeWith hd
    exact (fault_of_execute (s := s.latch c _) hwf (e.symm.trans h)).imp_right fun hf => .inl ⟨_, hf⟩

/-- Settles O37: the arbiter's two answers, and the faults a cycle can raise, which do not include the arbiter's. -/
theorem arbiterChecksEveryAddress : Obligations.ArbiterChecksEveryAddress := by
  refine ⟨fun a v s k k' h1 h2 => ⟨memRead_ok h1 h2 s k, memWrite_ok h1 h2 v s k'⟩,
    fun a v s k k' h => ⟨memRead_outside (by omega) s k, memWrite_outside (by omega) v s k'⟩,
    fun s t a hs hc h hf => ?_⟩
  rw [step_eq_stepAt, stepAt_running hs] at h
  rcases fault_of_cycle hc h with hsame | ⟨_, hdiv⟩ | ⟨_, hunknown⟩
  · exact hsame.symm
  · cases hf.symm.trans hdiv
  · cases hf.symm.trans hunknown

end Sys2Proof.Machine
end

section
/-! ## Decode and encode in the configuration of this hardware (R80 to R96) -/

namespace Sys2Proof

variable {n : Nat}

/-- The two fields of the Word that two two-digit fields encode to (R96). -/
theorem fields_encodeFields (hn : 16 ≤ n) {k a : Int} (h1 : 0 ≤ k) (h2 : k ≤ 99) (h3 : 0 ≤ a) (h4 : a ≤ 99) :
    (Machine.Alu.div100 (encodeFields k a n)).toInt = k ∧ (Machine.Alu.mod100 (encodeFields k a n)).toInt = a := by
  have hv := encodeFields_toInt hn h1 h2 h3 h4
  rw [Machine.Alu.div100_toInt, Machine.Alu.mod100_toInt]
  exact Machine.Alu.fields_unique hv (by omega) (by omega)

/-- The value of a Word that decodes to an instruction is made of the instruction's two fields (R83). -/
theorem toInt_of_decodeWith {reserved : List Int} {w : Word n} {i : Instr} (h : decodeWith reserved w = .instr i) :
    w.toInt = i.opcode * 100 + i.operand := by
  obtain ⟨hk, ha, -⟩ := fields_of_decodeWith h
  rw [← hk, ← ha, Machine.Alu.div100_toInt, Machine.Alu.mod100_toInt]
  exact (Machine.Alu.split_by_100 w.toInt).1

end Sys2Proof

namespace Sys2Proof.Machine

/-- Settles O1: the decoder of every width, at the width of this hardware. -/
theorem decodeInvertsEncode : Obligations.DecodeInvertsEncode := fun _ _ _ => decodeWith_eq_instr_iff (by decide)

/-- Settles O2: two-digit fields fit in a Word, and truncating division splits it at one place only. -/
theorem encodedFieldsDecodeBack : Obligations.EncodedFieldsDecodeBack :=
  ⟨fun _ _ h1 h2 h3 h4 => ⟨encodeFields_toInt (by decide) h1 h2 h3 h4, fields_encodeFields (by decide) h1 h2 h3 h4⟩,
    encodeFields_div100_mod100⟩

/-- Settles O4: the table has the Word's opcode or not, and only a rejection's name asks the reserved set. -/
theorem everyWordHasOneMeaning : Obligations.EveryWordHasOneMeaning := by
  intro reserved w
  rcases decodeWith_cases reserved w with ⟨g, -, hd⟩ | ⟨hno, hd⟩
  · obtain ⟨hk, ha, hw⟩ := fields_of_decodeWith hd
    rw [Alu.div100_toInt] at hk
    rw [Alu.mod100_toInt] at ha
    exact .inl ⟨hk ▸ opcode_mem _, _, fun others => decodeWith_instr_of_reserved others hd, hw, hk.symm, ha.symm⟩
  · exact .inr ⟨hno, _, hd, rejection_eq_reserved_iff reserved _⟩

/-- Settles O5: an instruction has a two-digit operand, and no opcode below 10. -/
theorem handlerOperandIsInRange : Obligations.HandlerOperandIsInRange := by
  intro reserved w i h
  obtain ⟨-, ha, hw⟩ := fields_of_decodeWith h
  have hw : i.operand < 100 := hw
  have hv := toInt_of_decodeWith h
  have hk := i.opcode_bounds
  exact ⟨by omega, ha, by omega, by omega⟩

/-- Settles O6 by running the decoder on each Word: the table comes before the reserved set in the lookup, so the
machine's open set is never asked for an implemented opcode. -/
theorem tableWordsDecode : Obligations.TableWordsDecode := by
  unfold Obligations.TableWordsDecode
  decide

end Sys2Proof.Machine
end

section
/-! ## A cycle and what stands outside the engine (R108) -/

namespace Sys2Proof.Machine

variable {cfg : Config.Parameters}

/-- `s` among other surroundings (logs 5, 7 and 8): the commands `cs` are queued, the Words `more` are delivered after
those of `s`, and, while the run goes on, `r` is the last result. -/
def State.among (cs : List (Command cfg.wordBits)) (r : Option CommandResult) (more : List (Word cfg.wordBits))
    (s : State cfg) : State cfg :=
  { s with commands := cs, result := if s.state = .running then r else s.result, input := s.input ++ more }

/-- The answer of an engine among other surroundings. -/
def Result.among (cs : List (Command cfg.wordBits)) (r : Option CommandResult) (more : List (Word cfg.wordBits)) :
    Result cfg → Result cfg
  | .next t => .next (t.among cs r more)
  | .fault f => .fault f
  | .refused f => .refused f

section Among

variable {cs : List (Command cfg.wordBits)} {r : Option CommandResult} {more : List (Word cfg.wordBits)} {s : State cfg}

@[simp] theorem State.among_acc : (s.among cs r more).acc = s.acc := rfl
@[simp] theorem State.among_counter : (s.among cs r more).counter = s.counter := rfl
@[simp] theorem State.among_state : (s.among cs r more).state = s.state := rfl
@[simp] theorem State.among_mem : (s.among cs r more).mem = s.mem := rfl
@[simp] theorem State.among_input : (s.among cs r more).input = s.input ++ more := rfl

theorem State.among_running (hs : s.state = .running) :
    s.among cs r more = { s with commands := cs, result := r, input := s.input ++ more } := by
  rw [State.among, if_pos hs]

/-- A reader commutes with the change of surroundings when what it does with each Word does. -/
theorem memRead_among {a : Int} {k k' : Word cfg.wordBits → Result cfg}
    (h : ∀ v, k' v = (k v).among cs r more) :
    memRead a (s.among cs r more) k' = (memRead a s k).among cs r more := by
  unfold memRead
  split
  · exact h _
  · rfl

theorem withWordAt_among (a : Nat) {k k' : Word cfg.wordBits → Result cfg} (h : ∀ v, k' v = (k v).among cs r more) :
    withWordAt a (s.among cs r more) k' = (withWordAt a s k).among cs r more := memRead_among h

/-- A writer commutes with it when what it does with each memory does. -/
theorem storingAt_among (a : Nat) {v : Word cfg.wordBits} {k k' : Memory cfg.wordBits → Result cfg}
    (h : ∀ m, k' m = (k m).among cs r more) :
    storingAt a v (s.among cs r more) k' = (storingAt a v s k).among cs r more := by
  unfold storingAt memWrite
  split
  · exact h _
  · rfl

/-- READ takes the first delivered Word, if one is delivered at all. -/
theorem execRead_among (hin : s.input = [] → more = []) (a : Nat) :
    execRead a (s.among cs r more) = (execRead a s).among cs r more := by
  cases hi : s.input with
  | nil =>
    have hi' : (s.among cs r more).input = [] := by simp [hi, hin hi]
    rw [execRead_waits hi, execRead_waits hi']
    rfl
  | cons v rest =>
    have hi' : (s.among cs r more).input = v :: (rest ++ more) := by simp [hi]
    rw [execRead, execRead, hi, hi']
    exact storingAt_among a fun _ => rfl

theorem execWrite_among (a : Nat) : execWrite a (s.among cs r more) = (execWrite a s).among cs r more :=
  withWordAt_among a fun _ => rfl

theorem execLoad_among (a : Nat) : execLoad a (s.among cs r more) = (execLoad a s).among cs r more :=
  withWordAt_among a fun _ => rfl

theorem execStore_among (a : Nat) : execStore a (s.among cs r more) = (execStore a s).among cs r more :=
  storingAt_among a fun _ => rfl

theorem execAdd_among (a : Nat) : execAdd a (s.among cs r more) = (execAdd a s).among cs r more :=
  withWordAt_among a fun _ => rfl

theorem execSubtract_among (a : Nat) : execSubtract a (s.among cs r more) = (execSubtract a s).among cs r more :=
  withWordAt_among a fun _ => rfl

theorem execMultiply_among (a : Nat) : execMultiply a (s.among cs r more) = (execMultiply a s).among cs r more :=
  withWordAt_among a fun _ => rfl

theorem execDivide_among (a : Nat) : execDivide a (s.among cs r more) = (execDivide a s).among cs r more := by
  refine withWordAt_among a fun d => ?_
  cases isZero d <;> rfl

theorem execBranchneg_among (a : Nat) :
    execBranchneg a (s.among cs r more) = (execBranchneg a s).among cs r more := by
  rw [execBranchneg, execBranchneg, State.among_acc]
  cases isNegative s.acc <;> rfl

theorem execBranchzero_among (a : Nat) :
    execBranchzero a (s.among cs r more) = (execBranchzero a s).among cs r more := by
  rw [execBranchzero, execBranchzero, State.among_acc]
  cases isZero s.acc <;> rfl

/-- No instruction looks at what stands outside, but for READ at the first delivered Word. -/
theorem execute_among (hin : s.input = [] → more = []) (i : Instr) :
    execute i (s.among cs r more) = (execute i s).among cs r more := by
  cases i with
  | read a => exact execRead_among hin a
  | write a => exact execWrite_among a
  | load a => exact execLoad_among a
  | store a => exact execStore_among a
  | add a => exact execAdd_among a
  | subtract a => exact execSubtract_among a
  | divide a => exact execDivide_among a
  | multiply a => exact execMultiply_among a
  | branch a => rfl
  | branchneg a => exact execBranchneg_among a
  | branchzero a => exact execBranchzero_among a
  | halt a => rfl

theorem inputReady_among (hin : s.input = [] → more = []) (i : Instr) :
    inputReady i (s.among cs r more) = inputReady i s := by
  cases hi : s.input with
  | nil => cases i <;> simp [inputReady, hi, hin hi]
  | cons v rest => cases i <;> simp [inputReady, hi]

theorem dispatchDecoded_among (hin : s.input = [] → more = []) {c : Int} {w : Word cfg.wordBits} (d : Decoded) :
    dispatchDecoded execute c w (s.among cs r more) d = (dispatchDecoded execute c w s d).among cs r more := by
  cases d with
  | rejected j k => rfl
  | instr i =>
    rw [dispatchDecoded, inputReady_among hin, dispatchDecoded]
    cases inputReady i s
    · rfl
    · exact execute_among (s := s.latch c w) hin i

theorem cycle_among (hin : s.input = [] → more = []) :
    cycle execute (s.among cs r more) = (cycle execute s).among cs r more := by
  unfold cycle
  rw [State.among_counter]
  split
  · rfl
  · exact memRead_among (s := s.setCounter (Alu.inc s.counter)) fun w => dispatchDecoded_among hin _

end Among

/-- Settles O14: the cycle commutes with the change of surroundings, whose last result stands only while the run goes
on. -/
theorem cycleIgnoresHostAndLaterInput : Obligations.CycleIgnoresHostAndLaterInput := by
  intro s t cs r more hs hin h
  rw [step_eq_stepAt] at h ⊢
  rw [stepAt_running hs] at h
  rw [← State.among_running hs, stepAt_running (s := s.among cs r more) hs, cycle_among hin, h]
  rfl

end Sys2Proof.Machine
end

section
/-! ## The cycle's steps, and the four ways a run ends (R101 to R106) -/

namespace Sys2Proof.Machine

variable {cfg : Config.Parameters} {s t : State cfg}

/-- A well-formed instruction that changes the FSM's state is a DIVIDE by zero or a HALT. -/
theorem ending_of_execute {i : Instr} (hw : i.WellFormed) (h : execute i s = .next t) (hs : t.state ≠ s.state) :
    (i = .divide i.operand ∧ s.mem.read i.operand = 0 ∧ t = s.enterFaulted (.divisionByZero i.operand)) ∨
    (i = .halt i.operand ∧ t = (s.setCounter Config.memSize).enterHalted) := by
  rcases execute_cases hw h with ⟨rfl, -⟩ | ⟨-, v, rest, -, rfl⟩ | ⟨-, rfl⟩ | ⟨-, rfl⟩ | ⟨-, v, rfl⟩ |
    hdivide | ⟨-, rfl⟩ | hhalt
  · exact absurd rfl hs
  · exact absurd rfl hs
  · exact absurd rfl hs
  · exact absurd rfl hs
  · exact absurd rfl hs
  · exact .inl hdivide
  · exact absurd rfl hs
  · exact .inr hhalt

/-- Settles O11: each way of a cycle keeps Running or is one of the four ends; the invariant excludes a counter below
the address space, and a counter beyond `MEM_SIZE - 1`. -/
theorem runEndsInFourWays : Obligations.RunEndsInFourWays := by
  intro s t hinv hs h hend
  obtain ⟨hlo, hhi⟩ := hinv.running_counter hs
  have hnone := hinv.fault_eq_none hs
  rw [step_eq_stepAt, stepAt_running hs] at h
  rcases cycle_cases execute s with ⟨hpast, e⟩ | ⟨hbelow, -⟩ |
    ⟨c, hc, hcc, ⟨r, k, hd, e⟩ | ⟨a, -, -, e⟩ | ⟨i, hd, -, e⟩⟩
  · cases h.symm.trans e
    have hcounter : s.counter + 1 = Config.memSize := by omega
    exact .inl ⟨hcounter, rfl, hcounter, hnone⟩
  · omega
  · cases h.symm.trans e
    obtain ⟨rfl, hno⟩ := not_mem_of_rejected hd
    exact .inr ⟨c, _, ⟨hs, hcc, hc, rfl⟩, .inl ⟨hno, rfl, rfl, by simp [Alu.div100_toInt]⟩⟩
  · cases h.symm.trans e
    exact absurd hs hend
  · obtain ⟨-, -, hwf⟩ := fields_of_decodeWith hd
    refine .inr ⟨c, _, ⟨hs, hcc, hc, rfl⟩, .inr ?_⟩
    rcases ending_of_execute (s := s.latch c _) hwf (e.symm.trans h) (by simpa [hs] using hend) with
      ⟨hi, hz, rfl⟩ | ⟨hi, rfl⟩
    · exact .inl ⟨i.operand, hi ▸ hd, hz, rfl, rfl, rfl⟩
    · exact .inr ⟨i.operand, hi ▸ hd, rfl, rfl, hnone⟩

/-- Settles O7: the state after steps 1 to 3 is the latched one. -/
theorem stepRunsDecodedInstruction : Obligations.StepRunsDecodedInstruction := by
  intro s c w i hf hd hr
  rw [step_eq_stepAt, exec_eq_execute]
  refine ⟨?_, Alu.div100_toInt w, Alu.mod100_toInt w⟩
  rw [stepAt_of_fetches hf, decodeWith_hardware, hd, dispatch_instr execute hr]
  rfl

/-- Settles O9: the halt at the end of memory, and the counters of a Running engine. -/
theorem endOfMemoryHalts : Obligations.EndOfMemoryHalts := by
  refine ⟨fun s hs hend => ?_, fun s hinv hs => ?_⟩
  · rw [step_running hs, cycle_end exec hend]
    exact ⟨_, rfl, rfl, rfl, rfl, rfl, rfl, rfl, rfl, rfl, rfl, rfl, rfl⟩
  · obtain ⟨hlo, hhi⟩ := hinv.running_counter hs
    omega

end Sys2Proof.Machine
end

section
/-! ## The placing of a Word at the next fetch (log 10) -/

namespace Sys2Proof.Machine

variable {cfg : Config.Parameters}

/-- The slot of the placed Word is an address. -/
theorem fetchSlot_bounds (s : State cfg) : 0 ≤ fetchSlot s ∧ fetchSlot s < Config.memSize := by
  unfold fetchSlot
  split
  next h => exact (inBounds_iff _).1 h
  next => decide

/-- The placed Word is the next one fetched. -/
theorem fetches_placeFetchWord {s : State cfg} (hm : s.mem.wf) (w : Word cfg.wordBits) :
    Fetches (placeFetchWord s w) (fetchSlot s).toNat w := by
  obtain ⟨hlo, hhi⟩ := fetchSlot_bounds s
  refine ⟨rfl, ?_, by omega, Memory.read_write_same hm _ w⟩
  show fetchSlot s - 1 + 1 = _
  omega

/-- The input of the placed instruction is there: a READ has a Word delivered. -/
theorem inputReady_placeFetchWord (s : State cfg) {w : Word cfg.wordBits} {i : Instr}
    (hd : decodeWith cfg.reservedOpcodes w = .instr i) : inputReady i (placeFetchWord s w) = true := by
  rw [← Bool.not_eq_false, inputReady_eq_false_iff]
  rintro ⟨hnil, a, rfl⟩
  rw [placeFetchWord, hd] at hnil
  cases hin : s.input <;> simp [inputForRead, hin] at hnil

/-- A number that is read as an instruction is a Word that decodes to it. -/
theorem decode_of_decodeTableWord {nbits w : Nat} {i : Instr} (h : decodeTableWord nbits w = some i) :
    decode (BitVec.ofNat Config.wordBits w) = .instr i := by
  unfold decodeTableWord at h
  cases hd : decode (BitVec.ofNat Config.wordBits w) with
  | instr j =>
    rw [hd] at h
    exact congrArg Decoded.instr (Option.some.inj h)
  | rejected r k =>
    rw [hd] at h
    cases h

/-- Settles O48: the placed Word is fetched, and a READ placed so does not wait. -/
theorem placedWordRunsNext : Obligations.PlacedWordRunsNext := by
  intro s nbits w i hm h
  have hd := decode_of_decodeTableWord h
  have hf := fetches_placeFetchWord hm (BitVec.ofNat Config.wordBits w)
  refine ⟨_, hf, ?_⟩
  rw [step_eq_stepAt, exec_eq_execute, State.withFetchWord, stepAt_of_fetches hf, decodeWith_hardware, hd,
    dispatch_instr execute (inputReady_placeFetchWord s hd)]

end Sys2Proof.Machine
end

section
/-! ## The ALU's exact results (R111, R141 to R144) -/

namespace Sys2Proof.Machine

variable {n : Nat}

/-- The spec's default for the overflowing quotient is that quotient, wrapped (R144 (b), log 3). -/
theorem Alu.quotientOverflow_eq_wrap (hn : 0 < n) : Config.quotientOverflow n = Alu.wrap n ((wmin n).tdiv (-1)) := by
  apply BitVec.eq_of_toInt_eq
  rw [Alu.toInt_quotientOverflow hn]
  have hw : (2 ^ n : Int) = wmax n - wmin n + 1 := by exact_mod_cast Alu.two_pow_eq hn
  have hmax : wmax n = -wmin n - 1 := by simp [wmin, wmax]
  have hdvd : (2 ^ n : Int) ∣ -wmin n - wmin n := ⟨1, by omega⟩
  have hpos : 0 ≤ -wmin n := by simp [wmin]
  rw [Int.tdiv_neg, Int.tdiv_one]
  exact Alu.eq_toInt_wrap_of_dvd hn le_rfl (by omega) hdvd

/-- DIV at the default overflow is the truncated quotient, wrapped, on every pair of Words (log 3). -/
theorem Alu.div_default_eq_wrap (hn : 0 < n) (a b : BitVec n) : Alu.div a b = Alu.wrap n (a.toInt.tdiv b.toInt) := by
  by_cases h : a.toInt = wmin n ∧ b.toInt = -1
  · obtain ⟨ha, hb⟩ := h
    rw [Alu.div_overflow ha hb, Alu.quotientOverflow_eq_wrap hn, ha, hb]
  · exact Alu.div_eq_wrap h _

/-- Settles O32: every operation wraps its exact result, and sum and product commute before they are wrapped. -/
theorem aluComputesExactlyThenWraps : Obligations.AluComputesExactlyThenWraps := by
  intro n a b hn
  refine ⟨Alu.wrapsTo_wrap hn _, Alu.wrapsTo_wrap hn _, Alu.wrapsTo_wrap hn _, fun _ => ?_, ?_, ?_⟩
  · rw [Alu.div_default_eq_wrap hn, Alu.truncatedQuotient_eq_tdiv]
    exact Alu.wrapsTo_wrap hn _
  · rw [Alu.add, Int.add_comm, Alu.add]
  · rw [Alu.mul, Int.mul_comm, Alu.mul]

end Sys2Proof.Machine
end

section
/-! ## READ, WRITE and the port histories (R121 to R123) -/

namespace Sys2Proof

variable {n : Nat}

/-- The Word of the number `opcode * 100 + operand` decodes to the instruction of these fields (R80, R86). -/
theorem decodeWith_ofNat (hn : 16 ≤ n) (reserved : List Int) {i : Instr} (hw : i.WellFormed) {k : Nat}
    (hk : (k : Int) = i.opcode * 100 + i.operand) : decodeWith reserved (BitVec.ofNat n k) = .instr i := by
  have henc : encode i n = BitVec.ofNat n k := by
    rw [encode, encodeFields, Machine.Alu.wrap, Config.operandModulus, ← hk, BitVec.ofInt_natCast]
  rw [← henc]
  exact decodeWith_encode hn reserved hw

end Sys2Proof

namespace Sys2Proof.Machine

variable {cfg : Config.Parameters} {s t : State cfg}

/-! ### The two instructions -/

/-- A cycle that fetches a READ with no Word delivered is held (R121; log 6). -/
theorem stepAt_read_waits {c a : Nat} {w : Word cfg.wordBits} (hf : Fetches s c w)
    (hd : decodeWith cfg.reservedOpcodes w = .instr (.read a)) (hin : s.input = []) : stepAt s = .next s := by
  rw [stepAt_of_fetches hf, hd]
  exact dispatch_held execute ((inputReady_eq_false_iff _ s).2 ⟨hin, a, rfl⟩)

/-- Once a Word has been delivered, the cycle of the fetched READ runs it (R121). -/
theorem stepAt_deliver_read {c a : Nat} {w : Word cfg.wordBits} (hf : Fetches s c w)
    (hd : decodeWith cfg.reservedOpcodes w = .instr (.read a)) (v : Word cfg.wordBits) :
    stepAt (s.deliver v) = execute (.read a) ((s.deliver v).latch c w) := by
  have hf' : Fetches (s.deliver v) c w := hf
  rw [stepAt_of_fetches hf', hd]
  exact dispatch_instr execute (by simp [inputReady])

/-- Settles O15: the Word's decode, the handler with a Word delivered, and the held cycle without one. -/
theorem readStoresTheDeliveredWord : Obligations.ReadStoresTheDeliveredWord := by
  intro a ha
  have hd (reserved : List Int) :
      decodeWith reserved (BitVec.ofNat Config.wordBits (1000 + a)) = .instr (.read a) :=
    decodeWith_ofNat (by decide) reserved (i := .read a) ha (by simp [Instr.opcode, Instr.operand])
  rw [step_eq_stepAt, exec_eq_execute]
  refine ⟨hd, fun s v rest hm hin => ?_, fun s c hf hin => ?_⟩
  · exact ⟨_, execRead_ok ha hin, Memory.read_write_same hm a v, fun b hb => Memory.read_write_other hm v hb⟩
  · exact ⟨stepAt_read_waits hf (hd _) hin, stepAt_deliver_read hf (hd _)⟩

/-- Settles O16: the Word's decode, and the handler on an address of memory. -/
theorem writeEmitsTheAddressedWord : Obligations.WriteEmitsTheAddressedWord := by
  intro a ha
  refine ⟨fun reserved => ?_, fun s => ?_⟩
  · exact decodeWith_ofNat (by decide) reserved (i := .write a) ha (by simp [Instr.opcode, Instr.operand])
  · exact execWrite_ok ha s

/-! ### The ports across a cycle -/

/-- What stands on the ports is the same in both states. -/
def SamePorts (s t : State cfg) : Prop := t.input = s.input ∧ t.inHist = s.inHist ∧ t.outHist = s.outHist

/-- From `s` to `t` the next delivered Word has been consumed, and nothing was emitted. -/
def Consumes (s t : State cfg) : Prop :=
  t.outHist = s.outHist ∧ ∃ v, s.input = v :: t.input ∧ t.inHist = s.inHist ++ [v]

/-- From `s` to `t` the Word `v` has been emitted, and nothing was consumed. -/
def Emits (v : Word cfg.wordBits) (s t : State cfg) : Prop :=
  t.input = s.input ∧ t.inHist = s.inHist ∧ t.outHist = s.outHist ++ [v]

/-- A well-formed instruction leaves the ports, or is a READ that consumes, or a WRITE that emits. -/
theorem ports_of_execute {i : Instr} (hw : i.WellFormed) (h : execute i s = .next t) :
    SamePorts s t ∨ (i = .read i.operand ∧ Consumes s t) ∨
    (i = .write i.operand ∧ Emits (s.mem.read i.operand) s t) := by
  rcases execute_cases hw h with ⟨rfl, -⟩ | ⟨hread, v, rest, hin, rfl⟩ | ⟨hwrite, rfl⟩ | ⟨-, rfl⟩ | ⟨-, v, rfl⟩ |
    ⟨-, -, rfl⟩ | ⟨-, rfl⟩ | ⟨-, rfl⟩
  · exact .inl ⟨rfl, rfl, rfl⟩
  · exact .inr (.inl ⟨hread, rfl, v, hin, rfl⟩)
  · exact .inr (.inr ⟨hwrite, rfl, rfl, rfl⟩)
  · exact .inl ⟨rfl, rfl, rfl⟩
  · exact .inl ⟨rfl, rfl, rfl⟩
  · exact .inl ⟨rfl, rfl, rfl⟩
  · exact .inl ⟨rfl, rfl, rfl⟩
  · exact .inl ⟨rfl, rfl, rfl⟩

/-- A cycle leaves the ports, or has fetched a READ that consumes, or a WRITE that emits. -/
theorem ports_of_cycle (hs : s.state = .running) (h : cycle execute s = .next t) :
    SamePorts s t ∨ ∃ (c : Nat) (w : Word cfg.wordBits) (a : Nat), Fetches s c w ∧
      ((decodeWith cfg.reservedOpcodes w = .instr (.read a) ∧ Consumes s t) ∨
       (decodeWith cfg.reservedOpcodes w = .instr (.write a) ∧ Emits (s.mem.read a) s t)) := by
  rcases cycle_cases execute s with ⟨-, e⟩ | ⟨-, e⟩ | ⟨c, hc, hcc, ⟨_, _, -, e⟩ | ⟨_, -, -, e⟩ | ⟨i, hd, -, e⟩⟩
  · cases h.symm.trans e
    exact .inl ⟨rfl, rfl, rfl⟩
  · cases h.symm.trans e
    exact .inl ⟨rfl, rfl, rfl⟩
  · cases h.symm.trans e
    exact .inl ⟨rfl, rfl, rfl⟩
  · cases h.symm.trans e
    exact .inl ⟨rfl, rfl, rfl⟩
  · obtain ⟨-, -, hw⟩ := fields_of_decodeWith hd
    rcases ports_of_execute (s := s.latch c _) hw (e.symm.trans h) with hsame | ⟨hi, hread⟩ | ⟨hi, hwrite⟩
    · exact .inl hsame
    · exact .inr ⟨c, _, i.operand, ⟨hs, hcc, hc, rfl⟩, .inl ⟨hi ▸ hd, hread⟩⟩
    · exact .inr ⟨c, _, i.operand, ⟨hs, hcc, hc, rfl⟩, .inr ⟨hi ▸ hd, hwrite⟩⟩

/-- Settles O36: in each way a cycle can move the ports, a Word leaves `input` exactly as it enters `inHist`. -/
theorem transfersFollowExecutionOrder : Obligations.TransfersFollowExecutionOrder := by
  intro s t hs h
  rw [step_eq_stepAt, stepAt_running hs] at h
  rcases ports_of_cycle hs h with ⟨hin, hinHist, hout⟩ |
    ⟨c, w, a, hf, ⟨hd, hout, v, hin, hinHist⟩ | ⟨hd, hin, hinHist, hout⟩⟩
  · exact ⟨by rw [hin, hinHist], fun hne => absurd hinHist hne, fun hne => absurd hout hne⟩
  · refine ⟨?_, fun _ => ⟨c, w, a, v, hf, hd, by rw [hin, List.head?_cons], hinHist⟩, fun hne => absurd hout hne⟩
    rw [hin, hinHist, List.append_assoc, List.singleton_append]
  · exact ⟨by rw [hin, hinHist], fun hne => absurd hinHist hne, fun _ => ⟨c, w, a, hf, hd, hout⟩⟩

end Sys2Proof.Machine
end

section
/-! ## LOAD and STORE (R131 to R133) -/

namespace Sys2Proof.Machine

/-- Writing back the Word that stands at an address changes nothing. -/
theorem Memory.write_read_self {n : Nat} {m : Memory n} (hm : m.wf) {a : Nat} (ha : a < Config.memSize) :
    m.write a (m.read a) = m := by
  refine Memory.eq_of_read_eq (Memory.wf_write hm ha _) hm fun b => ?_
  by_cases hb : b = a
  · rw [hb, Memory.read_write_same hm]
  · exact Memory.read_write_other hm _ hb

/-- Settles O17: the Word's decode, and the handler on an address of memory. -/
theorem loadCopiesTheAddressedWord : Obligations.LoadCopiesTheAddressedWord := by
  intro a ha
  refine ⟨fun reserved => ?_, fun s => ?_⟩
  · exact decodeWith_ofNat (by decide) reserved (i := .load a) ha (by simp [Instr.opcode, Instr.operand])
  · exact execLoad_ok ha s

/-- Settles O18: the Word's decode, and the read after the handler's write. -/
theorem storeWritesTheAccumulator : Obligations.StoreWritesTheAccumulator := by
  intro a ha
  refine ⟨fun reserved => ?_, fun s hm => ⟨s.mem.write a s.acc, ?_, ?_, fun b hb => ?_⟩⟩
  · exact decodeWith_ofNat (by decide) reserved (i := .store a) ha (by simp [Instr.opcode, Instr.operand])
  · exact execStore_ok ha s
  · exact Memory.read_write_same hm a s.acc
  · exact Memory.read_write_other hm s.acc hb

/-- Settles O28: STORE after LOAD writes back the Word read, and LOAD after STORE reads the Word written. -/
theorem loadAndStoreRoundTrip : Obligations.LoadAndStoreRoundTrip := by
  intro a s ha hm
  have hread : (s.mem.write a s.acc).read a = s.acc := Memory.read_write_same hm a s.acc
  constructor
  · exact ⟨_, _, execLoad_ok ha s, execStore_ok ha _, Memory.write_read_self hm ha, rfl⟩
  · exact ⟨_, _, execStore_ok ha s, execLoad_ok ha _, hread, hread⟩

end Sys2Proof.Machine
end

section
/-! ## ADD, SUBTRACT, DIVIDE and MULTIPLY (R143 to R148, R215) -/

namespace Sys2Proof.Machine

variable {cfg : Config.Parameters} {s : State cfg}

/-- A Word whose value is -1 is no zero divisor. -/
theorem ne_zero_of_toInt_eq_neg_one {n : Nat} {w : Word n} (h : w.toInt = -1) : w ≠ 0 := by
  rw [Ne, ← Alu.toInt_eq_zero_iff]
  omega

/-- DIVIDE on the overflowing pair answers the Word of the configuration, with no fault (R144 (b), log 3). -/
theorem execDivide_overflow {a : Nat} (ha : a < Config.memSize) (hmin : s.acc.toInt = wmin cfg.wordBits)
    (hneg : (s.mem.read a).toInt = -1) : execDivide a s = .next (s.setAcc cfg.quotientOverflow) := by
  rw [execDivide_ok ha (ne_zero_of_toInt_eq_neg_one hneg), Alu.div_overflow hmin hneg]

/-- A cycle that fetches a DIVIDE of a zero Word ends Faulted on the state after decode (R144 (a), R215). -/
theorem stepAt_divide_zero {c a : Nat} {w : Word cfg.wordBits} (hf : Fetches s c w)
    (hd : decodeWith cfg.reservedOpcodes w = .instr (.divide a)) (ha : a < Config.memSize) (hz : s.mem.read a = 0) :
    stepAt s = .next ((s.latch c w).enterFaulted (.divisionByZero a)) := by
  rw [stepAt_of_fetches hf, hd, dispatch_instr execute rfl]
  exact execDivide_zero ha hz

/-- Settles O60: a zero divisor, the overflowing pair, and every other pair, whose quotient is a Word. -/
theorem divisionCornerCases : Obligations.DivisionCornerCases := by
  intro p s a ha
  refine ⟨fun hz => ⟨execDivide_zero ha hz, rfl⟩, fun hmin hneg => execDivide_overflow ha hmin hneg,
    fun hz hno => ⟨_, execDivide_ok ha hz, ?_⟩⟩
  rw [Alu.truncatedQuotient_eq_tdiv]
  exact Alu.toInt_div (wordBits_pos p) hno _

/-- Settles O19: the Word's decode, and the handler's sum, which the ALU wraps. -/
theorem addWrapsTheSum : Obligations.AddWrapsTheSum := by
  intro a ha
  refine ⟨fun reserved => ?_, fun s => ⟨_, execAdd_ok ha s, Alu.wrapsTo_wrap (by decide) _⟩⟩
  exact decodeWith_ofNat (by decide) reserved (i := .add a) ha (by simp [Instr.opcode, Instr.operand])

/-- Settles O20: the Word's decode, and the handler's difference, which the ALU wraps. -/
theorem subtractWrapsTheDifference : Obligations.SubtractWrapsTheDifference := by
  intro a ha
  refine ⟨fun reserved => ?_, fun s => ⟨_, execSubtract_ok ha s, Alu.wrapsTo_wrap (by decide) _⟩⟩
  exact decodeWith_ofNat (by decide) reserved (i := .subtract a) ha (by simp [Instr.opcode, Instr.operand])

/-- Settles O22: the Word's decode, and the handler's product, which the ALU wraps. -/
theorem multiplyWrapsTheProduct : Obligations.MultiplyWrapsTheProduct := by
  intro a ha
  refine ⟨fun reserved => ?_, fun s => ⟨_, execMultiply_ok ha s, Alu.wrapsTo_wrap (by decide) _⟩⟩
  exact decodeWith_ofNat (by decide) reserved (i := .multiply a) ha (by simp [Instr.opcode, Instr.operand])

/-- Settles O21: at the default overflow the quotient is wrapped on every pair of Words (log 3), and a zero divisor
faults on the registers that decode has written. -/
theorem divideTruncatesOrFaults : Obligations.DivideTruncatesOrFaults := by
  intro a ha
  have hd (reserved : List Int) :
      decodeWith reserved (BitVec.ofNat Config.wordBits (3200 + a)) = .instr (.divide a) :=
    decodeWith_ofNat (by decide) reserved (i := .divide a) ha (by simp [Instr.opcode, Instr.operand])
  refine ⟨hd, fun s hz => ⟨_, execDivide_ok ha hz, ?_⟩, fun s c hf hz => ?_⟩
  · rw [Alu.div_default_eq_wrap (by decide), Alu.truncatedQuotient_eq_tdiv]
    exact Alu.wrapsTo_wrap (by decide) _
  · obtain ⟨hopCode, hoperand, -⟩ := fields_of_decodeWith (hd [])
    rw [step_eq_stepAt]
    exact ⟨_, stepAt_divide_zero hf (hd _) ha hz, rfl, rfl, rfl, rfl, hopCode, hoperand, rfl, rfl, rfl, rfl⟩

end Sys2Proof.Machine
end

section
/-! ## BRANCH, BRANCHNEG, BRANCHZERO and HALT (R160 to R168) -/

namespace Sys2Proof.Machine

variable {cfg : Config.Parameters} {s t : State cfg}

/-! ### The Words of the four instructions (R86, R96) -/

section

variable {a : Nat} (ha : a < Config.memSize) (reserved : List Int)
include ha

theorem decodeWith_branch : decodeWith reserved (BitVec.ofNat Config.wordBits (4000 + a)) = .instr (.branch a) :=
  decodeWith_ofNat (by decide) reserved (i := .branch a) ha (by simp [Instr.opcode, Instr.operand])

theorem decodeWith_branchneg :
    decodeWith reserved (BitVec.ofNat Config.wordBits (4100 + a)) = .instr (.branchneg a) :=
  decodeWith_ofNat (by decide) reserved (i := .branchneg a) ha (by simp [Instr.opcode, Instr.operand])

theorem decodeWith_branchzero :
    decodeWith reserved (BitVec.ofNat Config.wordBits (4200 + a)) = .instr (.branchzero a) :=
  decodeWith_ofNat (by decide) reserved (i := .branchzero a) ha (by simp [Instr.opcode, Instr.operand])

theorem decodeWith_halt : decodeWith reserved (BitVec.ofNat Config.wordBits (4300 + a)) = .instr (.halt a) :=
  decodeWith_ofNat (by decide) reserved (i := .halt a) ha (by simp [Instr.opcode, Instr.operand])

end

/-! ### The four handlers -/

/-- Settles O23: the Word's decode, and the handler's jump. -/
theorem branchSetsTheCounter : Obligations.BranchSetsTheCounter :=
  fun _ ha => ⟨decodeWith_branch ha, fun _ => rfl⟩

/-- Settles O24: the Word's decode, the handler on either side of the signed test, and the sign bit of `acc`. -/
theorem branchnegTestsTheSign : Obligations.BranchnegTestsTheSign := by
  intro a ha
  refine ⟨decodeWith_branchneg ha, fun s => ⟨fun hneg => ?_, fun hpos => ?_, ?_⟩⟩
  · exact execBranchneg_taken hneg
  · exact execBranchneg_not_taken hpos
  · rw [BitVec.msb_eq_toInt, decide_eq_true_iff]

/-- Settles O25: the Word's decode, and the handler on zero, the only Word whose value is 0, and on any other Word. -/
theorem branchzeroTestsForZero : Obligations.BranchzeroTestsForZero := by
  intro a ha
  refine ⟨decodeWith_branchzero ha, fun s => ⟨fun hzero => ?_, fun hne => ?_⟩⟩
  · exact execBranchzero_taken ((Alu.toInt_eq_zero_iff _).1 hzero)
  · exact execBranchzero_not_taken (mt (Alu.toInt_eq_zero_iff _).2 hne)

/-- Settles O26: the Word's decode, and the end of the run, whose state does not depend on the operand. -/
theorem haltEndsTheRun : Obligations.HaltEndsTheRun :=
  fun _ ha => ⟨decodeWith_halt ha, fun _ => ⟨_, rfl, rfl, rfl, rfl, rfl, rfl, rfl, rfl, rfl, rfl, rfl, rfl⟩⟩

/-! ### The branch summary (R165) -/

/-- A cycle that fetches an instruction that does not wait runs it on the state after decode (R104, R105). -/
theorem stepAt_of_instr {c : Nat} {w : Word cfg.wordBits} {i : Instr} (hf : Fetches s c w)
    (hd : decodeWith cfg.reservedOpcodes w = .instr i) (hr : inputReady i s = true) :
    stepAt s = execute i (s.latch c w) := by
  rw [stepAt_of_fetches hf, hd, dispatch_instr execute hr]

/-- After a jump a Running engine fetches from the target (R160). -/
theorem fetches_after_jump (hs : s.state = .running) {a : Nat} (ha : a < Config.memSize) :
    Fetches (s.setCounter (a - 1)) a (s.mem.read a) :=
  ⟨hs, by simp, ha, rfl⟩

/-- A Running engine that did not jump fetches from the address after its own. -/
theorem fetches_next (hs : s.state = .running) {c : Nat} (hc : s.counter = c) (hlt : c + 1 < Config.memSize) :
    Fetches s (c + 1) (s.mem.read (c + 1)) :=
  ⟨hs, by rw [hc, Nat.cast_succ], hlt, rfl⟩

/-- Settles O27: each cycle runs its handler on the latched state, which is Running at the branch's own address; a taken
branch then moves `counter` before its target, and one that is not taken leaves it. -/
theorem branchSummaryHolds : Obligations.BranchSummaryHolds := by
  intro s c a ha falls jumps
  have hjumps {w : Word} (hf : Fetches s c w) : jumps ((s.latch c w).setCounter (a - 1)) :=
    ⟨rfl, fetches_after_jump (s := s.latch c w) hf.1 ha⟩
  have hfalls {w : Word} (hf : Fetches s c w) : falls (s.latch c w) :=
    ⟨rfl, hf.1, fetches_next (s := s.latch c w) hf.1 rfl, fun hend => by rw [State.latch_counter]; omega⟩
  rw [step_eq_stepAt]
  refine ⟨fun hf => ?_, fun hf => ?_, fun hf => ?_, fun hf => ?_⟩
  · exact ⟨_, stepAt_of_instr hf (decodeWith_branch ha _) rfl, hjumps hf⟩
  · rw [stepAt_of_instr hf (decodeWith_branchneg ha _) rfl]
    exact ⟨fun hneg => ⟨_, execBranchneg_taken hneg, hjumps hf⟩,
      fun hpos => ⟨_, execBranchneg_not_taken hpos, hfalls hf⟩⟩
  · rw [stepAt_of_instr hf (decodeWith_branchzero ha _) rfl]
    exact ⟨fun hzero => ⟨_, execBranchzero_taken ((Alu.toInt_eq_zero_iff _).1 hzero), hjumps hf⟩,
      fun hne => ⟨_, execBranchzero_not_taken (mt (Alu.toInt_eq_zero_iff _).2 hne), hfalls hf⟩⟩
  · exact ⟨_, stepAt_of_instr hf (decodeWith_halt ha _) rfl, rfl, rfl⟩

/-! ### The two ways to Halted (R168) -/

/-- A cycle that ends Halted has passed the end of memory, or has fetched a HALT and run it. -/
theorem halted_of_cycle (hs : s.state = .running) (h : cycle execute s = .next t) (hend : t.state = .halted) :
    ((Config.memSize : Int) ≤ s.counter + 1 ∧ t = (s.setCounter (s.counter + 1)).enterHalted) ∨
    ∃ (c : Nat) (w : Word cfg.wordBits) (a : Nat), Fetches s c w ∧
      decodeWith cfg.reservedOpcodes w = .instr (.halt a) ∧
      t = ((s.latch c w).setCounter Config.memSize).enterHalted := by
  rcases cycle_cases execute s with ⟨hpast, e⟩ | ⟨-, e⟩ | ⟨c, hc, hcc, ⟨_, _, -, e⟩ | ⟨_, -, -, e⟩ | ⟨i, hd, -, e⟩⟩
  · cases h.symm.trans e
    exact .inl ⟨hpast, rfl⟩
  · cases h.symm.trans e
    cases hend
  · cases h.symm.trans e
    cases hend
  · cases h.symm.trans e
    cases hs.symm.trans hend
  · obtain ⟨-, -, hw⟩ := fields_of_decodeWith hd
    rcases ending_of_execute (s := s.latch c _) hw (e.symm.trans h) (by simp [hs, hend]) with
      ⟨-, -, rfl⟩ | ⟨hi, rfl⟩
    · cases hend
    · exact .inr ⟨c, _, i.operand, ⟨hs, hcc, hc, rfl⟩, hi ▸ hd, rfl⟩

/-- Settles O45: the end of memory keeps the registers of decode, whose `opCode` is no 43 while Running, and a fetched
HALT has latched its 43. -/
theorem opcodeTellsHaltFromEndOfMemory : Obligations.OpcodeTellsHaltFromEndOfMemory := by
  intro s t hinv hs h hend
  obtain ⟨-, hhi⟩ := hinv.running_counter hs
  have hnone := hinv.fault_eq_none hs
  rw [step_eq_stepAt, stepAt_running hs] at h
  rcases halted_of_cycle hs h hend with ⟨hpast, rfl⟩ | ⟨c, w, a, hf, hd, rfl⟩
  · have hcounter : s.counter + 1 = Config.memSize := by omega
    exact ⟨hcounter, hnone, .inr ⟨hinv.running_opCode hs, hcounter, rfl, rfl, rfl⟩⟩
  · obtain ⟨hopCode, -, -⟩ := fields_of_decodeWith hd
    exact ⟨rfl, hnone, .inl ⟨hopCode, c, w, a, hf, hd⟩⟩

end Sys2Proof.Machine
end

section
/-! ## What `Validate` reports (R182 to R184, R222) -/

namespace Sys2Proof.Machine

variable {n : Nat}

/-! ### One Word -/

/-- The zero test comes before the lookup (R222). -/
theorem checkWord_zero (reserved : List Int) {w : Word n} (hz : w.toInt = 0) :
    checkWord reserved w = some .invalidInstructionZero := by
  rw [checkWord, if_pos ((isZero_iff w).2 ((Alu.toInt_eq_zero_iff w).1 hz))]

/-- The lookup of its opcode decides a Word that is not 0 (R183). -/
theorem checkWord_of_ne_zero (reserved : List Int) {w : Word n} (hz : w.toInt ≠ 0) :
    checkWord reserved w = checkLookup (w.toInt.tdiv 100) (lookup reserved (w.toInt.tdiv 100)) := by
  rw [checkWord, if_neg (by rwa [isZero_iff, ← Alu.toInt_eq_zero_iff]), Alu.div100_toInt]

theorem checkWord_reserved {reserved : List Int} {w : Word n} (hz : w.toInt ≠ 0)
    (hk : w.toInt.tdiv 100 ∉ Config.implementedOpcodes) (hr : w.toInt.tdiv 100 ∈ reserved) :
    checkWord reserved w = some (.unimplementedOpcode (w.toInt.tdiv 100)) := by
  rw [checkWord_of_ne_zero reserved hz,
    (lookup_eq_uncallable_iff _ _ .reserved).2 ⟨hk, (rejection_eq_reserved_iff _ _).2 hr⟩, checkLookup]

theorem checkWord_absent {reserved : List Int} {w : Word n} (hz : w.toInt ≠ 0)
    (hk : w.toInt.tdiv 100 ∉ Config.implementedOpcodes) (hr : w.toInt.tdiv 100 ∉ reserved) :
    checkWord reserved w = some (.unknownOpcode (w.toInt.tdiv 100)) := by
  rw [checkWord_of_ne_zero reserved hz,
    (lookup_eq_uncallable_iff _ _ .absent).2 ⟨hk, (rejection_eq_absent_iff _ _).2 hr⟩, checkLookup]

/-- A Word with an implemented opcode passes: it is not 0, whose opcode is 0. -/
theorem checkWord_implemented (reserved : List Int) {w : Word n}
    (hk : w.toInt.tdiv 100 ∈ Config.implementedOpcodes) : checkWord reserved w = none := by
  have hz : w.toInt ≠ 0 := fun hz => by
    rw [hz] at hk
    exact absurd hk (by decide)
  cases hc : callable (w.toInt.tdiv 100) with
  | some h => rw [checkWord_of_ne_zero reserved hz, lookup_of_callable hc, checkLookup]
  | none => exact absurd hk ((callable_eq_none_iff _).1 hc)

/-- A Word without an implemented opcode fails, with an error of its own and not one of the whole program. -/
theorem checkWord_not_implemented (reserved : List Int) {w : Word n}
    (hk : w.toInt.tdiv 100 ∉ Config.implementedOpcodes) :
    ∃ e, checkWord reserved w = some e ∧ e ≠ .ok ∧ e ≠ .programTooLarge := by
  by_cases hz : w.toInt = 0
  · exact ⟨_, checkWord_zero reserved hz, nofun, nofun⟩
  by_cases hr : w.toInt.tdiv 100 ∈ reserved
  · exact ⟨_, checkWord_reserved hz hk hr, nofun, nofun⟩
  · exact ⟨_, checkWord_absent hz hk hr, nofun, nofun⟩

/-! ### The scan of a program -/

theorem checkWords_cons_implemented (reserved : List Int) {w : Word n} (ws : List (Word n))
    (hk : w.toInt.tdiv 100 ∈ Config.implementedOpcodes) :
    checkWords reserved (w :: ws) = checkWords reserved ws := by
  rw [checkWords, checkWord_implemented reserved hk, Option.getD_none]

theorem checkWords_cons_failing {reserved : List Int} {w : Word n} (ws : List (Word n)) {e : ValidateResult}
    (he : checkWord reserved w = some e) : checkWords reserved (w :: ws) = e := by
  rw [checkWords, he, Option.getD_some]

theorem checkWords_eq_ok_iff (reserved : List Int) (p : List (Word n)) :
    checkWords reserved p = .ok ↔ ∀ w ∈ p, w.toInt.tdiv 100 ∈ Config.implementedOpcodes := by
  induction p with
  | nil => simp [checkWords]
  | cons w ws ih =>
    rw [List.forall_mem_cons]
    by_cases hk : w.toInt.tdiv 100 ∈ Config.implementedOpcodes
    · rw [checkWords_cons_implemented reserved ws hk, ih, and_iff_right hk]
    · obtain ⟨e, he, hok, -⟩ := checkWord_not_implemented reserved hk
      rw [checkWords_cons_failing ws he]
      exact iff_of_false hok fun h => hk h.1

theorem checkWords_ne_programTooLarge (reserved : List Int) (p : List (Word n)) :
    checkWords reserved p ≠ .programTooLarge := by
  induction p with
  | nil => exact nofun
  | cons w ws ih =>
    by_cases hk : w.toInt.tdiv 100 ∈ Config.implementedOpcodes
    · rwa [checkWords_cons_implemented reserved ws hk]
    · obtain ⟨e, he, -, hlarge⟩ := checkWord_not_implemented reserved hk
      rwa [checkWords_cons_failing ws he]

/-- The first failing Word decides (R183). -/
theorem checkWords_first_failure {reserved : List Int} {front : List (Word n)} {w : Word n} (later : List (Word n))
    {e : ValidateResult} (hfront : ∀ x ∈ front, x.toInt.tdiv 100 ∈ Config.implementedOpcodes)
    (he : checkWord reserved w = some e) : checkWords reserved (front ++ w :: later) = e := by
  induction front with
  | nil => exact checkWords_cons_failing later he
  | cons x front ih =>
    obtain ⟨hx, hfront⟩ := List.forall_mem_cons.1 hfront
    rw [List.cons_append, checkWords_cons_implemented reserved _ hx, ih hfront]

/-! ### The result -/

/-- The length is looked at before any Word (R222). -/
theorem validate_of_lt (reserved : List Int) {p : List (Word n)} (h : Config.memSize < p.length) :
    validate reserved p = .programTooLarge := by
  rw [validate, if_pos h]

theorem validate_of_le (reserved : List Int) {p : List (Word n)} (h : p.length ≤ Config.memSize) :
    validate reserved p = checkWords reserved p := by
  rw [validate, if_neg (not_lt.2 h)]

theorem validate_eq_programTooLarge_iff (reserved : List Int) (p : List (Word n)) :
    validate reserved p = .programTooLarge ↔ Config.memSize < p.length := by
  refine ⟨fun h => not_le.1 fun hle => ?_, validate_of_lt reserved⟩
  rw [validate_of_le reserved hle] at h
  exact checkWords_ne_programTooLarge reserved p h

theorem validate_eq_ok_iff (reserved : List Int) (p : List (Word n)) :
    validate reserved p = .ok ↔
      p.length ≤ Config.memSize ∧ ∀ w ∈ p, w.toInt.tdiv 100 ∈ Config.implementedOpcodes := by
  rcases lt_or_ge Config.memSize p.length with hlt | hle
  · rw [validate_of_lt reserved hlt]
    exact iff_of_false nofun fun h => not_lt.2 h.1 hlt
  · rw [validate_of_le reserved hle, checkWords_eq_ok_iff, and_iff_right hle]

/-- Settles O41: the length decides first, then the check of the first Word without an implemented opcode. -/
theorem validateReportsTheFirstFailure : Obligations.ValidateReportsTheFirstFailure := by
  intro reserved p hdis
  refine ⟨validate_eq_programTooLarge_iff reserved p, validate_eq_ok_iff reserved p, ?_⟩
  rintro front w later hlen rfl hfront
  rw [validate_of_le reserved hlen]
  exact ⟨fun hz => checkWords_first_failure later hfront (checkWord_zero reserved hz),
    fun hz hr => checkWords_first_failure later hfront (checkWord_reserved hz (hdis _ hr) hr),
    fun hz hk hr => checkWords_first_failure later hfront (checkWord_absent hz hk hr)⟩

end Sys2Proof.Machine
end

section
/-! ## Host commands, the end of a run, the snapshot, and the moves from outside (R181 to R203) -/

namespace Sys2Proof.Machine

variable {cfg : Config.Parameters} {s t : State cfg}

/-! ### What a cycle gives back (R196) -/

/-- A well-formed instruction keeps state, result and fault, or it enters Halted or Faulted. -/
theorem report_of_execute {i : Instr} (hw : i.WellFormed) (h : execute i s = .next t) :
    (t.state = s.state ∧ t.result = s.result ∧ t.fault = s.fault) ∨
    (∃ u : State cfg, t = u.enterHalted) ∨ ∃ (u : State cfg) (f : RuntimeFault), t = u.enterFaulted f := by
  rcases execute_cases hw h with ⟨rfl, -⟩ | ⟨-, v, rest, -, rfl⟩ | ⟨-, rfl⟩ | ⟨-, rfl⟩ | ⟨-, v, rfl⟩ |
    ⟨-, -, rfl⟩ | ⟨-, rfl⟩ | ⟨-, rfl⟩
  · exact .inl ⟨rfl, rfl, rfl⟩
  · exact .inl ⟨rfl, rfl, rfl⟩
  · exact .inl ⟨rfl, rfl, rfl⟩
  · exact .inl ⟨rfl, rfl, rfl⟩
  · exact .inl ⟨rfl, rfl, rfl⟩
  · exact .inr (.inr ⟨_, _, rfl⟩)
  · exact .inl ⟨rfl, rfl, rfl⟩
  · exact .inr (.inl ⟨_, rfl⟩)

/-- A cycle keeps state, result and fault, or it ends the run by entering Halted or Faulted (R106). -/
theorem report_of_cycle (h : cycle execute s = .next t) :
    (t.state = s.state ∧ t.result = s.result ∧ t.fault = s.fault) ∨
    (∃ u : State cfg, t = u.enterHalted) ∨ ∃ (u : State cfg) (f : RuntimeFault), t = u.enterFaulted f := by
  rcases cycle_cases execute s with ⟨-, e⟩ | ⟨-, e⟩ | ⟨c, -, -, ⟨_, _, -, e⟩ | ⟨_, -, -, e⟩ | ⟨i, hd, -, e⟩⟩
  · exact .inr (.inl ⟨_, Host.Outcome.next.inj (h.symm.trans e)⟩)
  · exact .inr (.inr ⟨_, _, Host.Outcome.next.inj (h.symm.trans e)⟩)
  · exact .inr (.inr ⟨_, _, Host.Outcome.next.inj (h.symm.trans e)⟩)
  · cases h.symm.trans e
    exact .inl ⟨rfl, rfl, rfl⟩
  · obtain ⟨-, -, hwf⟩ := fields_of_decodeWith hd
    exact report_of_execute (s := s.latch c _) hwf (e.symm.trans h)

/-- Settles O44: the two entries into an end state set the result, and no other cycle does. -/
theorem runGivesBackItsEnd : Obligations.RunGivesBackItsEnd := by
  intro s t hs h
  rw [step_eq_stepAt, stepAt_running hs] at h
  rcases report_of_cycle h with ⟨hstate, hresult, hfault⟩ | ⟨u, rfl⟩ | ⟨u, f, rfl⟩
  · rw [hstate, hs]
    exact ⟨fun _ => ⟨hresult, hfault⟩, nofun, nofun⟩
  · exact ⟨nofun, fun _ => rfl, nofun⟩
  · exact ⟨nofun, nofun, fun _ => ⟨f, rfl, rfl⟩⟩

/-! ### The commands of the host (R181, R182, R190, R191) -/

/-- The loader refuses a program that does not fit before anything is changed (R191). -/
theorem startRun_of_lt {p : List (Word cfg.wordBits)} (h : Config.memSize < p.length) (s : State cfg) :
    startRun p s = .error .programTooLarge := by
  rw [startRun, if_pos h]

theorem exists_startRun_of_le {p : List (Word cfg.wordBits)} (h : p.length ≤ Config.memSize) (s : State cfg) :
    ∃ t, startRun p s = .ok t := by
  rw [startRun, if_neg (not_lt.2 h)]
  exact ⟨_, rfl⟩

/-- Settles O40: a stopped engine serves the head of its queue, and waits when there is none. -/
theorem hostCommandsAreServed : Obligations.HostCommandsAreServed := by
  intro s rest hs
  rw [step_not_running hs]
  refine ⟨fun hc => ?_, fun p hc => ?_, fun p hc hlen => ?_, fun p hc hlen => ?_, serveHost_nil⟩
  · rw [serveHost_cons hc]
    rfl
  · rw [serveHost_cons hc]
    rfl
  · rw [serveHost_cons hc, serveCommand, startRun_of_lt hlen]
    rfl
  · obtain ⟨t, ht⟩ := exists_startRun_of_le hlen { s with commands := rest }
    rw [serveHost_cons hc, serveCommand, ht]
    exact ⟨t, rfl, rfl⟩

/-! ### The snapshot (R200) -/

/-- Settles O47: the list of Words is memory read at 0 to 99 in turn. -/
theorem snapshotShowsTheStoppedEngine : Obligations.SnapshotShowsTheStoppedEngine := by
  refine ⟨fun s hs => if_pos hs, fun s hs => ⟨_, if_neg hs, rfl, rfl, rfl, rfl, rfl, rfl, rfl, ?_, fun a ha => ?_⟩⟩
  · rw [List.length_map, List.length_range]
  · rw [List.getElem?_map, List.getElem?_range ha, Option.map_some]

/-! ### The moves from outside (R203) -/

/-- What stands on the input port is none of the invariant. -/
theorem EngineInv.withInput (h : EngineInv s) (ws : List (Word cfg.wordBits)) : EngineInv { s with input := ws } :=
  ⟨h.memory_canonical, h.opCode_decoded, h.operand_decoded, h.faulted_iff, h.ready_fresh, h.running_counter,
    h.running_opCode, h.running_result, h.halted_counter, h.faulted_explained⟩

/-- Settles O51: the two moves change the queue of commands and the input port, and nothing else. -/
theorem outsideMovesKeepEngineInvariant : Obligations.OutsideMovesKeepEngineInvariant :=
  fun _ h => ⟨fun _ => h.withCommands _, fun _ => h.withInput _⟩

end Sys2Proof.Machine
end

section
/-! ## Runtime faults, and the stopped engine (R216, R223, R224, R226) -/

namespace Sys2Proof.Machine

variable {cfg : Config.Parameters} {s t : State cfg}

/-! ### Fault entry (R216, R223) -/

/-- A cycle from a counter of -1 or more that ends Faulted has entered Faulted from the state after decode (R224). -/
theorem faulted_of_cycle (hs : s.state = .running) (hlo : -1 ≤ s.counter) (h : cycle execute s = .next t)
    (hend : t.state = .faulted) :
    ∃ (c : Nat) (w : Word cfg.wordBits) (f : RuntimeFault), Fetches s c w ∧ t = (s.latch c w).enterFaulted f := by
  rcases cycle_cases execute s with ⟨-, e⟩ | ⟨hbelow, -⟩ |
    ⟨c, hc, hcc, ⟨_, _, -, e⟩ | ⟨_, -, -, e⟩ | ⟨i, hd, -, e⟩⟩
  · cases h.symm.trans e
    cases hend
  · omega
  · exact ⟨c, _, _, ⟨hs, hcc, hc, rfl⟩, Host.Outcome.next.inj (h.symm.trans e)⟩
  · cases h.symm.trans e
    cases hs.symm.trans hend
  · obtain ⟨-, -, hwf⟩ := fields_of_decodeWith hd
    rcases ending_of_execute (s := s.latch c _) hwf (e.symm.trans h) (by simp [hs, hend]) with
      ⟨-, -, rfl⟩ | ⟨-, rfl⟩
    · exact ⟨c, _, _, ⟨hs, hcc, hc, rfl⟩, rfl⟩
    · cases hend

/-- Settles O12: fault entry keeps every register, so what a faulting cycle leaves is what fetch and decode wrote. -/
theorem faultsArePrecise : Obligations.FaultsArePrecise := by
  intro s t hs hlo h hend
  rw [step_eq_stepAt, stepAt_running hs] at h
  obtain ⟨c, w, f, ⟨-, hcc, -, hw⟩, rfl⟩ := faulted_of_cycle hs hlo h hend
  have hfetched : w = s.mem.read (s.counter + 1).toNat := by rw [hcc, Int.toNat_natCast, hw]
  exact ⟨hcc.symm, hfetched, Alu.div100_toInt w, Alu.mod100_toInt w, rfl, rfl, rfl, rfl, rfl⟩

/-- Settles O10: a cycle that fetches a Word without an implemented opcode enters Faulted from the state after decode
(O55, at this hardware's configuration). -/
theorem uncallableOpcodeFaults : Obligations.UncallableOpcodeFaults := by
  intro s c w hf hno
  obtain ⟨hfetched, -⟩ := everyWidthRunsTheFetchedWord Config.hardware s
  obtain ⟨-, hfaults⟩ := hfetched c w hf
  rw [step_eq_stepAt]
  exact ⟨_, hfaults hno, rfl, rfl, rfl, rfl, Alu.div100_toInt w, Alu.mod100_toInt w, rfl, rfl, rfl, rfl, rfl⟩

/-! ### The stopped engine (R226, R240) -/

/-- A run from a state whose step answers that state stays in it. -/
theorem run_of_step_self (M : Host.Core) {s : M.State} (h : M.step s = .next s) (k : Nat) : M.run k s = .next s := by
  induction k with
  | zero => rfl
  | succ k ih => rw [run_succ_of_next M k h, ih]

/-- Settles O46: with no command queued, the step of a stopped engine holds (log 9). -/
theorem stoppedEngineKeepsEverything : Obligations.StoppedEngineKeepsEverything := by
  intro k s hs hc
  have hhold : step s = .next s := by rw [step_not_running hs, serveHost_nil hc]
  exact run_of_step_self core hhold k

end Sys2Proof.Machine
end

section
/-! ## Reset, the start of `Run`, and what `Validate` guarantees (R241, R242, R246) -/

namespace Sys2Proof.Machine

variable {cfg : Config.Parameters} {s t : State cfg}

/-! ### Power-on and the start of `Run` (R194, R241, R242) -/

/-- Settles O38: the power-on values of `State.fresh`, and a memory with no cell. -/
theorem resetIsTheFreshEngine : Obligations.ResetIsTheFreshEngine :=
  ⟨rfl, rfl, rfl, rfl, rfl, rfl, rfl, fun a _ => Memory.read_nil a, rfl, rfl⟩

/-- A program that fits is loaded at address 0 (R193). -/
theorem mem_of_startRun {p : List (Word cfg.wordBits)} (h : startRun p s = .ok t) :
    t.mem = s.mem.load 0 p := by
  obtain ⟨-, hlen⟩ := state_of_startRun h
  rw [startRun, if_neg (not_lt.2 hlen)] at h
  cases h
  rfl

/-- After the load each Word of the program stands at its index. -/
theorem read_program_of_startRun {p : List (Word cfg.wordBits)} (hm : s.mem.wf) (h : startRun p s = .ok t)
    {i : Nat} (hi : i < p.length) : t.mem.read i = p[i] := by
  obtain ⟨-, hlen⟩ := state_of_startRun h
  rw [mem_of_startRun h, Memory.read_load hm p (by omega), dif_pos (by omega)]
  rfl

/-- The load keeps every Word after the program (R194). -/
theorem read_after_program_of_startRun {p : List (Word cfg.wordBits)} (hm : s.mem.wf) (h : startRun p s = .ok t)
    {a : Nat} (ha : p.length ≤ a) : t.mem.read a = s.mem.read a := by
  obtain ⟨-, hlen⟩ := state_of_startRun h
  rw [mem_of_startRun h, Memory.read_load hm p (by omega), dif_neg (by omega)]

/-- Settles O39: the registers are at their reset values, and the load leaves the program in place and the rest of
memory alone. -/
theorem runResetsRegistersAndLoads : Obligations.RunResetsRegistersAndLoads := by
  intro p s hm hlen
  have hstart : startRun p s = .ok _ := if_neg (not_lt.2 hlen)
  exact ⟨_, hstart, rfl, rfl, rfl, rfl, rfl, rfl, rfl, rfl, rfl, Memory.wf_load hm p (by omega),
    fun _ hi => read_program_of_startRun hm hstart hi, fun _ ha => read_after_program_of_startRun hm hstart ha⟩

/-! ### A validated program (R246) -/

/-- A cycle that raises `RuntimeUnknownOpcode` has fetched a Word whose opcode is not implemented (R104). -/
theorem not_implemented_of_unknownOpcode {c : Nat} {w : Word cfg.wordBits} {k : Int} (hf : Fetches s c w)
    (hnone : s.fault = none) (h : stepAt s = .next t) (hk : t.fault = some (.runtimeUnknownOpcode k)) :
    w.toInt.tdiv 100 ∉ Config.implementedOpcodes := by
  rw [stepAt_of_fetches hf] at h
  cases hd : decodeWith cfg.reservedOpcodes w with
  | rejected r k' =>
    obtain ⟨rfl, hno⟩ := not_mem_of_rejected hd
    exact hno
  | instr i =>
    rw [hd] at h
    cases hr : inputReady i s with
    | false =>
      cases h.symm.trans (dispatch_held execute hr)
      cases hnone.symm.trans hk
    | true =>
      rw [dispatch_instr execute hr] at h
      obtain ⟨-, -, hwf⟩ := fields_of_decodeWith hd
      rcases fault_of_execute hwf h with hsame | hdiv
      · cases (hsame.trans hnone).symm.trans hk
      · cases hdiv.symm.trans hk

/-- Settles O43: `Validate` has seen an implemented opcode in every Word of the program, the load puts these Words in
place, and only a Word without one raises the lookup fault. -/
theorem validatedWordsRaiseNoLookupFault : Obligations.ValidatedWordsRaiseNoLookupFault := by
  intro reserved p hok
  obtain ⟨hlen, himpl⟩ := (validate_eq_ok_iff reserved p).1 hok
  refine ⟨fun s hm => ?_, fun s t c hc k hf hnone h hk => ?_⟩
  · obtain ⟨t, ht⟩ := exists_startRun_of_le hlen s
    refine ⟨t, ht, fun i hi => ?_⟩
    rw [read_program_of_startRun hm ht hi]
    exact himpl _ (List.getElem_mem hi)
  · rw [step_eq_stepAt] at h
    exact not_implemented_of_unknownOpcode hf hnone h hk (himpl _ (List.getElem_mem hc))

end Sys2Proof.Machine
end
